-- ==== Sys2Proof/Word.lean ====
section
/-! DEFINITION. The word types of the CHIP-8 core: every quantity of the machine is an unsigned bit vector
of one of four widths (spec/00_scope.md R8, spec/30_encoding.md R71). -/

namespace Sys2Proof

/-- Four bits: one hexadecimal digit of an instruction word (R16), the height field `n` of Dxyn. -/
abbrev Nibble := BitVec 4

/-- Eight bits: a general register, a timer, a memory byte, the immediate `nn`. -/
abbrev Byte := BitVec 8

/-- Twelve bits: the address field `nnn`. -/
abbrev Addr := BitVec 12

/-- Sixteen bits: an instruction word, `I`, `pc`, a return address. -/
abbrev Word := BitVec 16

/-- A register index, used directly: every value 0..15 names a register (R20, R73). -/
abbrev Reg := BitVec 4

end Sys2Proof
end

