-- ==== Sys2Proof/Syntax.lean ====
section
/-! DEFINITION. The instruction set of spec/30_encoding.md R76: 34 instructions, one constructor each, in the
table's order. The pattern in each docstring is the spec's normative name of the instruction (R80). -/

namespace Sys2Proof

/-- An instruction with its operands. Each operand's type is exactly the field that carries it (R71), so every
term is encodable: no operand can be out of range. -/
inductive Instr where
  /-- 00E0 `CLS` (R150). -/
  | cls
  /-- 00EE `RET` (R100). -/
  | ret
  /-- 1nnn `JP nnn` (R101). -/
  | jp (nnn : Addr)
  /-- 2nnn `CALL nnn` (R102). -/
  | call (nnn : Addr)
  /-- 3xnn `SE Vx, nn` (R104). -/
  | seByte (x : Reg) (nn : Byte)
  /-- 4xnn `SNE Vx, nn` (R105). -/
  | sneByte (x : Reg) (nn : Byte)
  /-- 5xy0 `SE Vx, Vy` (R106). -/
  | seReg (x y : Reg)
  /-- 6xnn `LD Vx, nn` (R120). -/
  | ldByte (x : Reg) (nn : Byte)
  /-- 7xnn `ADD Vx, nn` (R121). -/
  | addByte (x : Reg) (nn : Byte)
  /-- 8xy0 `LD Vx, Vy` (R122). -/
  | ldReg (x y : Reg)
  /-- 8xy1 `OR Vx, Vy` (R123). -/
  | orReg (x y : Reg)
  /-- 8xy2 `AND Vx, Vy` (R124). -/
  | andReg (x y : Reg)
  /-- 8xy3 `XOR Vx, Vy` (R125). -/
  | xorReg (x y : Reg)
  /-- 8xy4 `ADD Vx, Vy` (R126). -/
  | addReg (x y : Reg)
  /-- 8xy5 `SUB Vx, Vy` (R127). -/
  | subReg (x y : Reg)
  /-- 8xy6 `SHR Vx`; `y` is decoded and ignored (R78, R128). -/
  | shr (x y : Reg)
  /-- 8xy7 `SUBN Vx, Vy` (R129). -/
  | subnReg (x y : Reg)
  /-- 8xyE `SHL Vx`; `y` is decoded and ignored (R78, R130). -/
  | shl (x y : Reg)
  /-- 9xy0 `SNE Vx, Vy` (R107). -/
  | sneReg (x y : Reg)
  /-- Annn `LD I, nnn` (R140). -/
  | ldI (nnn : Addr)
  /-- Bnnn `JP V0, nnn` (R103). -/
  | jpV0 (nnn : Addr)
  /-- Cxnn `RND Vx, nn` (R131). -/
  | rnd (x : Reg) (nn : Byte)
  /-- Dxyn `DRW Vx, Vy, n` (R151). -/
  | drw (x y : Reg) (n : Nibble)
  /-- Ex9E `SKP Vx` (R160). -/
  | skp (x : Reg)
  /-- ExA1 `SKNP Vx` (R161). -/
  | sknp (x : Reg)
  /-- Fx07 `LD Vx, DT` (R163). -/
  | ldVxDt (x : Reg)
  /-- Fx0A `LD Vx, K` (R162). -/
  | ldVxK (x : Reg)
  /-- Fx15 `LD DT, Vx` (R164). -/
  | ldDtVx (x : Reg)
  /-- Fx18 `LD ST, Vx` (R165). -/
  | ldStVx (x : Reg)
  /-- Fx1E `ADD I, Vx` (R141). -/
  | addI (x : Reg)
  /-- Fx29 `LD F, Vx` (R142). -/
  | ldF (x : Reg)
  /-- Fx33 `LD B, Vx` (R143). -/
  | ldB (x : Reg)
  /-- Fx55 `LD [I], Vx`: stores V0..Vx (R144). -/
  | storeRegs (x : Reg)
  /-- Fx65 `LD Vx, [I]`: loads V0..Vx (R145). -/
  | loadRegs (x : Reg)
  deriving DecidableEq, Repr

end Sys2Proof
end

