-- ==== Sys2Proof/Config.lean ====
section
/-! DEFINITION. The fixed parameters of spec/00_scope.md R6 and the one free value of the machine, the byte
drawn by Cxnn (R7(b), R131). The configuration constant FONT (R7(a)) stands in Sys2Proof/Machine/Font.lean. -/

namespace Sys2Proof

/-- MEM_SIZE: bytes of memory, addresses 0x000 to 0xFFF (R6). -/
abbrev Config.memSize : Nat := 4096

/-- ADDR_MAX: the highest valid memory address (R6). -/
abbrev Config.addrMax : Nat := 0xFFF

/-- FONT_LEN: bytes of the font table, which starts at address 0 (R6). -/
abbrev Config.fontLen : Nat := 80

/-- ROM_BASE: where `load` writes its first byte (R6). -/
abbrev Config.romBase : Nat := 0x200

/-- ROM_MAX: the longest payload `load` accepts (R6). -/
abbrev Config.romMax : Nat := 3584

/-- RESET_PC: the program counter after construct or reset (R6). -/
abbrev Config.resetPc : Word := 0x200

/-- DISP_W: display columns (R6). -/
abbrev Config.dispW : Nat := 64

/-- DISP_H: display rows (R6). -/
abbrev Config.dispH : Nat := 32

/-- GLYPH_STRIDE: bytes per glyph (R6). -/
abbrev Config.glyphStride : Nat := 5

/-- `rnd`, the byte that the `k`-th execution of Cxnn draws (R131, decision D11): a free value. It has no
body that Lean can evaluate, so nothing proved about the machine rests on any draw. DESIGN CHOICE of the form,
notes/assumptions/1.md. -/
opaque Config.rnd : Nat → Byte

end Sys2Proof
end

