-- ==== Sys2Proof/Machine/Font.lean ====
section
/-! DEFINITION. FONT, the configuration constant of spec/00_scope.md R7(a) and spec/10_state.md R40: the 80 bytes
that construct and reset copy to 0x000..0x04F. The values are the default that R40 lists and marks as general
knowledge. PRESUMED, unsafe for a claim about the bytes: notes/assumptions/2.md. -/

namespace Sys2Proof.Machine

/-- Glyphs 0 to 7, five rows each, top to bottom (R40). -/
def fontLow : List Byte :=
  [0xF0, 0x90, 0x90, 0x90, 0xF0,
   0x20, 0x60, 0x20, 0x20, 0x70,
   0xF0, 0x10, 0xF0, 0x80, 0xF0,
   0xF0, 0x10, 0xF0, 0x10, 0xF0,
   0x90, 0x90, 0xF0, 0x10, 0x10,
   0xF0, 0x80, 0xF0, 0x10, 0xF0,
   0xF0, 0x80, 0xF0, 0x90, 0xF0,
   0xF0, 0x10, 0x20, 0x40, 0x40]

/-- Glyphs 8 to F (R40). -/
def fontHigh : List Byte :=
  [0xF0, 0x90, 0xF0, 0x90, 0xF0,
   0xF0, 0x90, 0xF0, 0x10, 0xF0,
   0xF0, 0x90, 0xF0, 0x90, 0x90,
   0xE0, 0x90, 0xE0, 0x90, 0xE0,
   0xF0, 0x80, 0x80, 0x80, 0xF0,
   0xE0, 0x90, 0x90, 0x90, 0xE0,
   0xF0, 0x80, 0xF0, 0x80, 0xF0,
   0xF0, 0x80, 0xF0, 0x80, 0x80]

/-- `FONT[0]` .. `FONT[79]` (R40). -/
def font : List Byte := fontLow ++ fontHigh

end Sys2Proof.Machine
end

