-- ==== Sys2Proof/Machine/State.lean ====
section
/-! DEFINITION. The state of the core as plain data: every piece of state of spec/10_state.md, one field each,
under the spec's names, plus one counter of the model's own; the reset state (R39); the reasons a step can stop. -/

namespace Sys2Proof.Machine

/-- The six error conditions of the machine, a closed list (spec/60_exceptions.md R180). Each is taken as the
spec describes fault entry (R190): a next state with the latch `fault` set. Safe: the state is the one the spec
gives. -/
inductive Cause where
  /-- Raised by `step` when the fetched word decodes to no instruction (R181). -/
  | unimplementedOpcode
  /-- Raised by 2nnn when sixteen return addresses are held (R182). -/
  | stackOverflow
  /-- Raised by 00EE when no return address is held (R183). -/
  | stackUnderflow
  /-- Raised by the fetch, Dxyn, Fx33, Fx55 and Fx65 when they touch an address above 0xFFF (R184). -/
  | addressOutOfRange
  /-- Raised by `set_key` with an index above 15, and by Ex9E and ExA1 with `V[x]` above 15 (R185). -/
  | invalidInputIndex
  /-- Raised by `load` with more than 3584 bytes (R186). -/
  | oversizedRom
  deriving DecidableEq, Repr

/-- The whole state of the core. -/
structure State where
  /-- `V[0]` .. `V[15]` (R20). -/
  v : Vector Byte 16
  /-- `I` (R23). -/
  i : Word
  /-- `pc` (R24): between two operations, the address of the next instruction. -/
  pc : Word
  /-- `STACK[0]` .. `STACK[15]` (R27). -/
  stack : Vector Word 16
  /-- `SP`, the number of return addresses held, 0..16 (R28). -/
  sp : Fin 17
  /-- `DT` (R30). -/
  dt : Byte
  /-- `ST` (R31). -/
  st : Byte
  /-- `KEY[0]` .. `KEY[15]`, true = pressed (R32). -/
  key : Vector Bool 16
  /-- `DISP` (R33), row `py` at index `py`; bit `px` of a row is the cell of column `px`, so
  `DISP[px + 64 * py]` is bit `px` of row `py`. -/
  disp : Vector (BitVec 64) 32
  /-- `MEM` (R34), by the bytes that differ from the reset contents. -/
  mem : List Host.Cell
  /-- `FAULT` (R35): the first error condition since the last construct or reset. -/
  fault : Option Cause
  /-- The number of draws made so far: the model's own field, which selects the next free value
  (notes/assumptions/1.md). -/
  draws : Nat
  deriving DecidableEq, Repr

/-- The state after `construct()` (R39, R210): all zero but `pc = 0x200` and the font, which is what unlisted
memory reads as. -/
def State.reset : State where
  v := Vector.replicate 16 0
  i := 0
  pc := Config.resetPc
  stack := Vector.replicate 16 0
  sp := 0
  dt := 0
  st := 0
  key := Vector.replicate 16 false
  disp := Vector.replicate 32 0
  mem := []
  fault := none
  draws := 0

/-- The reasons a step can end in `Outcome.fault`: none. The spec describes the entry of each of its six error
conditions (R190), so each of them is a next state with the latch set, and no definition of the model raises an
outcome outside the machine. Safe. -/
inductive Fault where
  deriving DecidableEq, Repr

/-- The reasons a step can be refused. -/
inductive Refusal where
  /-- The instruction, by its mnemonic in spec/opcode_table.json, has no meaning yet. Raised only by an arm of
  `exec`; no arm raises it in this model, where every instruction has its meaning. Safe. -/
  | notModelled (mnemonic : String)
  deriving DecidableEq, Repr

/-- What one step answers. -/
abbrev Result := Host.Outcome State Fault Refusal

end Sys2Proof.Machine
end

