-- ==== Sys2Proof/Machine/Ops.lean ====
section
/-! DEFINITION. The named operations over registers, stack and memory, the fetch, and taking an error condition
(spec/20_memory.md, spec/60_exceptions.md R190). Registers, stack and memory are read and written only here. -/

namespace Sys2Proof.Machine

/-! ## Memory -/

/-- What an address that no cell lists reads as: the contents after construct or reset, the font at
0x000..0x04F and zero above (R39). -/
def resetByte (a : Nat) : Byte := if a < Config.fontLen then font[a]?.getD 0 else 0

/-- The value listed at an address. -/
def Memory.find? : List Host.Cell → Nat → Option Byte
  | [], _ => none
  | (b, u) :: rest, a => if a = b then some u else Memory.find? rest a

/-- `MEM[a]` (R10). -/
def Memory.read (m : List Host.Cell) (a : Nat) : Byte := (Memory.find? m a).getD (resetByte a)

/-- A cell put before a list, unless it holds what its address reads as when unlisted. -/
def Memory.consCell (a : Nat) (b : Byte) (m : List Host.Cell) : List Host.Cell :=
  if b = resetByte a then m else (a, b) :: m

/-- `MEM[a] <- b`, keeping the canonical form. -/
def Memory.write : List Host.Cell → Nat → Byte → List Host.Cell
  | [], a, b => Memory.consCell a b []
  | (c, u) :: rest, a, b =>
    if a < c then Memory.consCell a b ((c, u) :: rest)
    else if a = c then Memory.consCell a b rest
    else (c, u) :: Memory.write rest a b

/-- Whether a list is canonical with every address at least `lo`: addresses strictly rising and valid, no cell
equal to what its address reads as when unlisted. -/
def Memory.wfFrom : Nat → List Host.Cell → Bool
  | _, [] => true
  | lo, (a, b) :: rest => decide (lo ≤ a) && decide (a ≤ Config.addrMax) && (b != resetByte a) && Memory.wfFrom (a + 1) rest

/-- The canonical form of memory: equal memories are equal lists. -/
def Memory.wf (m : List Host.Cell) : Bool := Memory.wfFrom 0 m

/-- Whether `n` consecutive byte accesses from address `a` are all at or below ADDR_MAX. The address is an
unbounded natural number, never reduced (R53); no access at all is always in range. -/
def inRange (a n : Nat) : Bool := n == 0 || decide (a + n ≤ Config.memSize)

/-- The bytes at `a`, .., `a + n - 1`, without a bound check. -/
def Memory.readList (m : List Host.Cell) (a : Nat) : Nat → List Byte
  | 0 => []
  | n + 1 => Memory.read m a :: Memory.readList m (a + 1) n

/-- The bytes written to `a`, `a + 1`, .. in ascending order, without a bound check. -/
def Memory.writeList : List Host.Cell → Nat → List Byte → List Host.Cell
  | m, _, [] => m
  | m, a, b :: bs => Memory.writeList (Memory.write m a b) (a + 1) bs

/-- `n` consecutive byte reads (R10); none where one of them is out of range (R53). -/
def Memory.load? (m : List Host.Cell) (a n : Nat) : Option (List Byte) :=
  if inRange a n then some (Memory.readList m a n) else none

/-- Consecutive byte writes (R10); none, so nothing written, where one of them is out of range (R53). -/
def Memory.store? (m : List Host.Cell) (a : Nat) (bs : List Byte) : Option (List Host.Cell) :=
  if inRange a bs.length then some (Memory.writeList m a bs) else none

/-! ## Registers -/

/-- `V[x]` (R9). -/
def State.getV (s : State) (x : Reg) : Byte := s.v[x.toNat]'x.isLt

/-- `V[x] <- b` (R9). -/
def State.setV (s : State) (x : Reg) (b : Byte) : State := { s with v := s.v.set x.toNat b x.isLt }

/-- `V[0]` .. `V[x]` in ascending order (R144). -/
def State.regsTo (s : State) (x : Reg) : List Byte := s.v.toList.take (x.toNat + 1)

/-- `V[k] <- bs[0]`, `V[k+1] <- bs[1]`, .. in ascending order (R145). -/
def writeRegs : Vector Byte 16 → Nat → List Byte → Vector Byte 16
  | v, _, [] => v
  | v, k, b :: bs => writeRegs (v.setIfInBounds k b) (k + 1) bs

/-- `pc <- a + 2`, the advance that fetch makes before an instruction executes (R92). -/
def State.advance (s : State) : State := { s with pc := s.pc + 2 }

/-- `pc <- pc + 2` where the condition holds: the skip of all six skip instructions (R108). -/
def State.skipIf (c : Bool) (s : State) : State := if c then { s with pc := s.pc + 2 } else s

/-! ## The call stack -/

/-- Push a return address; none where sixteen are held (R28, R102). -/
def State.push? (s : State) (a : Word) : Option State :=
  if h : s.sp.val < 16 then
    some { s with stack := s.stack.set s.sp.val a h, sp := ⟨s.sp.val + 1, by omega⟩ }
  else none

/-- Pop the newest return address, which its slot keeps (R29); none where none is held (R28, R100). -/
def State.pop? (s : State) : Option (Word × State) :=
  if h : 0 < s.sp.val then
    some (s.stack[s.sp.val - 1]'(by omega), { s with sp := ⟨s.sp.val - 1, by omega⟩ })
  else none

/-! ## The display -/

/-- `DISP[px + 64 * py]` (R33). -/
def State.pixel (s : State) (px py : Nat) : Bool := (s.disp[py]?.getD 0).getLsbD px

/-! ## Taking an error condition -/

/-- `raise` (spec/00_scope.md R11, R190): the state is the one before the operation, but for the latch, which
keeps the first cause since reset. -/
def State.raise (c : Cause) (s : State) : State := { s with fault := s.fault.or (some c) }

/-- An instruction that raises: every write it would make is discarded (R94, R190). It goes nowhere: there is no
handler and no return (R192); the only exits are the host's reset and construct (`resetOp`, Machine/HostOps.lean). -/
def takeFault (c : Cause) (s : State) : Result := .next (s.raise c)

/-- The code of the latch `FAULT`, as the host sees it (R35, R180). -/
def faultCode : Option Cause → BitVec 3
  | none => 0
  | some .unimplementedOpcode => 1
  | some .stackOverflow => 2
  | some .stackUnderflow => 3
  | some .addressOutOfRange => 4
  | some .invalidInputIndex => 5
  | some .oversizedRom => 6

/-! ## Instruction fetch -/

/-- The instruction word at `pc`, big end first, whatever the parity of `pc` (R50, R52, R91); none where one of
its two bytes lies above ADDR_MAX. -/
def fetch? (s : State) : Option Word :=
  if inRange s.pc.toNat 2 then some (Memory.read s.mem s.pc.toNat ++ Memory.read s.mem (s.pc.toNat + 1)) else none

/-- The state with a word stored where the next step fetches; unchanged where no fetch can succeed. -/
def placeWord (s : State) (bytes : List Byte) : State :=
  match Memory.store? s.mem s.pc.toNat bytes with
  | some m => { s with mem := m }
  | none => s

end Sys2Proof.Machine
end

