-- ==== Sys2Proof/Machine/Operands.lean ====
section
/-! DEFINITION. Operand forms (spec/30_encoding.md R73, spec/43_index_memory.md R146): immediates, effective
addresses, key indices, decimal digits, sprite coordinates. -/

namespace Sys2Proof.Machine

/-- `zext_16(nnn)` (R73). -/
def addrWord (nnn : Addr) : Word := nnn.setWidth 16

/-- `zext_16(v)` of a register value (R103, R141). -/
def byteWord (b : Byte) : Word := b.setWidth 16

/-- The base of every data access: `I` as an unbounded natural number (R53, R146). -/
def State.base (s : State) : Nat := s.i.toNat

/-- `Vx * 5`, the address of glyph `Vx`, with no mask (R142). -/
def glyphAddr (vx : Byte) : Word := BitVec.ofNat 16 (vx.toNat * Config.glyphStride)

/-- The decimal digits of a byte, hundreds first, one byte each (R143). -/
def bcdDigits (vx : Byte) : List Byte :=
  [BitVec.ofNat 8 (vx.toNat / 100), BitVec.ofNat 8 (vx.toNat / 10 % 10), BitVec.ofNat 8 (vx.toNat % 10)]

/-- Key latch `k` (R32). -/
def State.keyDown (s : State) (k : Nat) : Bool := s.key[k]?.getD false

/-- The latch that a register value selects; none above 15, never masked (R166). -/
def State.keyAt? (s : State) (vx : Byte) : Option Bool := s.key[vx.toNat]?

/-- The smallest `k` with `KEY[k] = 1` (R162, decision D10). -/
def State.lowestKey? (s : State) : Option Nat := (List.range 16).find? fun k => s.keyDown k

/-- The column of the pixel `col` places right of `vx`, wrapped (R151). -/
def pixelCol (vx : Byte) (col : Nat) : Nat := (vx.toNat + col) % Config.dispW

/-- The row of the pixel `row` places below `vy`, wrapped (R151). -/
def pixelRow (vy : Byte) (row : Nat) : Nat := (vy.toNat + row) % Config.dispH

/-- Bit `7 - col` of a sprite byte: column `col`, most significant bit first (R151). -/
def spriteBit (b : Byte) (col : Nat) : Bool := b.getLsbD (7 - col)

end Sys2Proof.Machine
end

