-- ==== Sys2Proof/Machine/ControlFlow.lean ====
section
/-! DEFINITION. Control transfer (spec/41_control_flow.md): 00EE, 1nnn, 2nnn, Bnnn, 3xnn, 4xnn, 5xy0, 9xy0. Each
meaning runs on the state whose `pc` is the instruction's own address `a` and begins with the advance to `a + 2`
that fetch makes (R92), so that an error condition leaves `pc = a` (R94). -/

namespace Sys2Proof.Machine

/-- 00EE (R100): pop the return address into `pc`; StackUnderflow where none is held. -/
def execRet (s : State) : Result :=
  match s.pop? with
  | some (a, t) => .next { t with pc := a }
  | none => takeFault .stackUnderflow s

/-- 1nnn (R101): the target is not checked (R109). -/
def execJp (nnn : Addr) (s : State) : Result := .next { s with pc := addrWord nnn }

/-- 2nnn (R102): push `a + 2` and jump; StackOverflow where sixteen addresses are held. -/
def execCall (nnn : Addr) (s : State) : Result :=
  match s.advance.push? (s.pc + 2) with
  | some t => .next { t with pc := addrWord nnn }
  | none => takeFault .stackOverflow s

/-- Bnnn (R103): the base is always V0 and the sum is not reduced below 16 bits. -/
def execJpV0 (nnn : Addr) (s : State) : Result := .next { s with pc := byteWord (s.getV 0) + addrWord nnn }

/-- 3xnn (R104). -/
def execSeByte (x : Reg) (nn : Byte) (s : State) : Result := .next (s.advance.skipIf (s.getV x == nn))

/-- 4xnn (R105). -/
def execSneByte (x : Reg) (nn : Byte) (s : State) : Result := .next (s.advance.skipIf (s.getV x != nn))

/-- 5xy0 (R106). -/
def execSeReg (x y : Reg) (s : State) : Result := .next (s.advance.skipIf (s.getV x == s.getV y))

/-- 9xy0 (R107). -/
def execSneReg (x y : Reg) (s : State) : Result := .next (s.advance.skipIf (s.getV x != s.getV y))

end Sys2Proof.Machine
end

