-- ==== Sys2Proof/Machine/Flags.lean ====
section
/-! DEFINITION. The results and flags of the arithmetic instructions (spec/42_load_alu.md R132(d), (e)): operands
as natural numbers, the exact result, then the explicit narrowing. The flag byte is always 0 or 1 (R21). -/

namespace Sys2Proof.Machine

/-- The byte that VF receives for a flag (R21). -/
def flagByte (c : Bool) : Byte := if c then 1 else 0

/-- `(a + b) mod 256` (R121, R126). -/
def addByte (a b : Byte) : Byte := BitVec.ofNat 8 (a.toNat + b.toNat)

/-- The carry: the true sum exceeds 255 (R126). -/
def addCarry (a b : Byte) : Bool := decide (255 < a.toNat + b.toNat)

/-- `(a - b) mod 256`, a negative difference `d` stored as `d + 256` (R127, R132(c)). -/
def subByte (a b : Byte) : Byte := BitVec.ofInt 8 ((a.toNat : Int) - (b.toNat : Int))

/-- No borrow: minuend at least subtrahend, equality included (R127, R129). -/
def subNoBorrow (a b : Byte) : Bool := decide (b.toNat ≤ a.toNat)

/-- `a >> 1`, logical (R128). -/
def shrByte (a : Byte) : Byte := BitVec.ofNat 8 (a.toNat / 2)

/-- The bit that a right shift moves out: bit 0 (R128). -/
def shrOut (a : Byte) : Bool := a.getLsbD 0

/-- `(a << 1) mod 256` (R130). -/
def shlByte (a : Byte) : Byte := BitVec.ofNat 8 (a.toNat * 2)

/-- The bit that a left shift moves out: bit 7 (R130). -/
def shlOut (a : Byte) : Bool := a.getLsbD 7

/-- `(I + Vx) mod 65536`, no flag (R141). -/
def addIndex (i : Word) (vx : Byte) : Word := BitVec.ofNat 16 (i.toNat + vx.toNat)

end Sys2Proof.Machine
end

