-- ==== Sys2Proof/Machine/Display.lean ====
section
/-! DEFINITION. The display instructions (spec/44_display.md): 00E0 and Dxyn. -/

namespace Sys2Proof.Machine

/-- The display with whether a toggle has turned a set pixel off so far. -/
abbrev Canvas := Vector (BitVec 64) 32 × Bool

/-- Toggle one pixel, noting a collision (R151). -/
def togglePixel (d : Canvas) (px py : Nat) : Canvas :=
  let row := d.1[py]?.getD 0
  (d.1.setIfInBounds py (row ^^^ BitVec.twoPow 64 px), d.2 || row.getLsbD px)

/-- Toggle the pixels of the set bits of one sprite byte, columns `col`, .., 7, counted by `left` (R151). -/
def drawBits (vx : Byte) (py : Nat) (b : Byte) : Nat → Nat → Canvas → Canvas
  | _, 0, d => d
  | col, left + 1, d =>
    drawBits vx py b (col + 1) left (if spriteBit b col then togglePixel d (pixelCol vx col) py else d)

/-- Draw the sprite's bytes as rows `row`, `row + 1`, .. (R151). -/
def drawRows (vx vy : Byte) : Nat → List Byte → Canvas → Canvas
  | _, [], d => d
  | row, b :: bs, d => drawRows vx vy (row + 1) bs (drawBits vx (pixelRow vy row) b 0 8 d)

/-- 00E0 (R150). -/
def execCls (s : State) : Result := .next { s.advance with disp := Vector.replicate 32 0 }

/-- Dxyn (R151): XOR the sprite of `n` bytes at `I` onto the display, each pixel wrapped on its own, then the
collision flag to VF. With `n = 0` no memory is read. -/
def execDrw (x y : Reg) (n : Nibble) (s : State) : Result :=
  match Memory.load? s.mem s.base n.toNat with
  | some bs =>
    let d := drawRows (s.getV x) (s.getV y) 0 bs (s.disp, false)
    .next (({ s.advance with disp := d.1 } : State).setV 0xF (flagByte d.2))
  | none => takeFault .addressOutOfRange s

end Sys2Proof.Machine
end

