-- ==== Sys2Proof/Machine/IndexMemory.lean ====
section
/-! DEFINITION. The address register and memory instructions (spec/43_index_memory.md): Annn, Fx1E, Fx29, Fx33,
Fx55, Fx65. The bound check of a whole range precedes every transfer (R53). -/

namespace Sys2Proof.Machine

/-- Annn (R140). -/
def execLdI (nnn : Addr) (s : State) : Result := .next { s.advance with i := addrWord nnn }

/-- Fx1E (R141): wraps at 16 bits, sets no flag. -/
def execAddI (x : Reg) (s : State) : Result := .next { s.advance with i := addIndex s.i (s.getV x) }

/-- Fx29 (R142): no mask to four bits. -/
def execLdF (x : Reg) (s : State) : Result := .next { s.advance with i := glyphAddr (s.getV x) }

/-- Fx33 (R143): three decimal digits at `I`, `I + 1`, `I + 2`. -/
def execLdB (x : Reg) (s : State) : Result :=
  match Memory.store? s.mem s.base (bcdDigits (s.getV x)) with
  | some m => .next { s.advance with mem := m }
  | none => takeFault .addressOutOfRange s

/-- Fx55 (R144): V0..Vx to `I`, .., `I + x`; `I` unchanged. -/
def execStoreRegs (x : Reg) (s : State) : Result :=
  match Memory.store? s.mem s.base (s.regsTo x) with
  | some m => .next { s.advance with mem := m }
  | none => takeFault .addressOutOfRange s

/-- Fx65 (R145): `I`, .., `I + x` to V0..Vx; `I` unchanged. -/
def execLoadRegs (x : Reg) (s : State) : Result :=
  match Memory.load? s.mem s.base (x.toNat + 1) with
  | some bs => .next { s.advance with v := writeRegs s.v 0 bs }
  | none => takeFault .addressOutOfRange s

end Sys2Proof.Machine
end

