-- ==== Sys2Proof/Machine/KeypadTimer.lean ====
section
/-! DEFINITION. The keypad and timer instructions (spec/45_keypad_timer.md): Ex9E, ExA1, Fx0A, Fx07, Fx15, Fx18.
No instruction changes a key latch, and none decrements a timer (R97). -/

namespace Sys2Proof.Machine

/-- Ex9E (R160): InvalidInputIndex where `V[x] > 15` (R166). -/
def execSkp (x : Reg) (s : State) : Result :=
  match s.keyAt? (s.getV x) with
  | some down => .next (s.advance.skipIf down)
  | none => takeFault .invalidInputIndex s

/-- ExA1 (R161): InvalidInputIndex where `V[x] > 15` (R166). -/
def execSknp (x : Reg) (s : State) : Result :=
  match s.keyAt? (s.getV x) with
  | some down => .next (s.advance.skipIf (!down))
  | none => takeFault .invalidInputIndex s

/-- Fx0A (R162): the lowest pressed key; with no key pressed `pc` goes back to `a`. -/
def execLdVxK (x : Reg) (s : State) : Result :=
  match s.lowestKey? with
  | some k => .next (s.advance.setV x (BitVec.ofNat 8 k))
  | none => .next { s.advance with pc := s.advance.pc - 2 }

/-- Fx07 (R163). -/
def execLdVxDt (x : Reg) (s : State) : Result := .next (s.advance.setV x s.dt)

/-- Fx15 (R164). -/
def execLdDtVx (x : Reg) (s : State) : Result := .next { s.advance with dt := s.getV x }

/-- Fx18 (R165). -/
def execLdStVx (x : Reg) (s : State) : Result := .next { s.advance with st := s.getV x }

end Sys2Proof.Machine
end

