-- ==== Sys2Proof/Machine/LoadAlu.lean ====
section
/-! DEFINITION. Register load, arithmetic, logic, shift and random (spec/42_load_alu.md): 6xnn, 7xnn, 8xy0 to
8xy7, 8xyE, Cxnn. Operands are the values before the instruction and writes happen in the order of the spec's
row, the last one winning where x = F (R12, R133). -/

namespace Sys2Proof.Machine

/-- 6xnn (R120). -/
def execLdByte (x : Reg) (nn : Byte) (s : State) : Result := .next (s.advance.setV x nn)

/-- 7xnn (R121): no flag. -/
def execAddByte (x : Reg) (nn : Byte) (s : State) : Result := .next (s.advance.setV x (addByte (s.getV x) nn))

/-- 8xy0 (R122). -/
def execLdReg (x y : Reg) (s : State) : Result := .next (s.advance.setV x (s.getV y))

/-- 8xy1 (R123): VF is not written. -/
def execOrReg (x y : Reg) (s : State) : Result := .next (s.advance.setV x (s.getV x ||| s.getV y))

/-- 8xy2 (R124): VF is not written. -/
def execAndReg (x y : Reg) (s : State) : Result := .next (s.advance.setV x (s.getV x &&& s.getV y))

/-- 8xy3 (R125): VF is not written. -/
def execXorReg (x y : Reg) (s : State) : Result := .next (s.advance.setV x (s.getV x ^^^ s.getV y))

/-- 8xy4 (R126): the sum, then the carry to VF. -/
def execAddReg (x y : Reg) (s : State) : Result :=
  let vx := s.getV x
  let vy := s.getV y
  .next ((s.advance.setV x (addByte vx vy)).setV 0xF (flagByte (addCarry vx vy)))

/-- 8xy5 (R127): the difference, then no-borrow to VF. -/
def execSubReg (x y : Reg) (s : State) : Result :=
  let vx := s.getV x
  let vy := s.getV y
  .next ((s.advance.setV x (subByte vx vy)).setV 0xF (flagByte (subNoBorrow vx vy)))

/-- 8xy6 (R128): the bit shifted out to VF, then the shifted value to Vx; Vy is neither read nor written. -/
def execShr (x _y : Reg) (s : State) : Result :=
  let vx := s.getV x
  .next ((s.advance.setV 0xF (flagByte (shrOut vx))).setV x (shrByte vx))

/-- 8xy7 (R129): `Vy - Vx`, then no-borrow to VF. -/
def execSubnReg (x y : Reg) (s : State) : Result :=
  let vx := s.getV x
  let vy := s.getV y
  .next ((s.advance.setV x (subByte vy vx)).setV 0xF (flagByte (subNoBorrow vy vx)))

/-- 8xyE (R130): the bit shifted out to VF, then the shifted value to Vx; Vy is neither read nor written. -/
def execShl (x _y : Reg) (s : State) : Result :=
  let vx := s.getV x
  .next ((s.advance.setV 0xF (flagByte (shlOut vx))).setV x (shlByte vx))

/-- Cxnn (R131): the next draw, ANDed with `nn`. The drawn byte is the free value `Config.rnd` at the counter
`draws`, which the instruction advances (notes/assumptions/1.md). -/
def execRnd (x : Reg) (nn : Byte) (s : State) : Result :=
  .next (({ s.advance with draws := s.draws + 1 } : State).setV x (Config.rnd s.draws &&& nn))

end Sys2Proof.Machine
end

