-- ==== Sys2Proof/Machine/Cycle.lean ====
section
/-! DEFINITION. One fetch-decode-execute cycle (spec/40_step_cycle.md R90). The instruction runs on the state
before the cycle and makes the advance of `pc` itself, so that an error condition commits nothing (R94). -/

namespace Sys2Proof.Machine

/-- A cycle of a core that is not faulted: fetch (R91), decode (R93), execute. -/
def runCycle (s : State) : Result :=
  match fetch? s with
  | none => takeFault .addressOutOfRange s
  | some w =>
    match decodeWord w with
    | .ok i => exec i s
    | .error _ => takeFault .unimplementedOpcode s

/-- `step()` of R90: a faulted core does nothing (R95). -/
def stepCore (s : State) : Result :=
  match s.fault with
  | some _ => .next s
  | none => runCycle s

end Sys2Proof.Machine
end

