-- ==== Sys2Proof/Machine/Step.lean ====
section
/-! DEFINITION. The step of the machine and the placing of an instruction where it fetches next. -/

namespace Sys2Proof.Machine

/-- `step()` (spec/40_step_cycle.md R90). -/
def step (s : State) : Host.Outcome State Fault Refusal := stepCore s

/-- The state with the instruction of an opcode-table row stored at `pc`, high byte first (R50). A program comes
to run from `State.reset` by the host's `load`, for which this stands (notes/assumptions/10.md). -/
def State.withFetchWord (s : State) (nbits w : Nat) : State := placeWord s (wordBytes (tableWord nbits w))

end Sys2Proof.Machine
end

