-- ==== Sys2Proof/Machine/HostOps.lean ====
section
/-! DEFINITION. The operations of the host other than `step` (spec/46_host_operations.md R170,
spec/60_exceptions.md R196, spec/70_reset_and_hazards.md R210), each one atomic function of the state. None of
them is held back by a latched fault (R190). -/

namespace Sys2Proof.Machine

/-- `construct()` (R210, R211). -/
def construct : State := State.reset

/-- `reset()` (R210): the state of `construct()`, `FAULT` cleared. The draw counter, which is no state of the
spec, runs on, so that draws after a reset are fresh (R131; notes/assumptions/1.md). -/
def resetOp (s : State) : State := { construct with draws := s.draws }

/-- `load(bytes)` (R171): OversizedRom above 3584 bytes, and then nothing is written. -/
def loadRom (bytes : List Byte) (s : State) : State :=
  if Config.romMax < bytes.length then s.raise .oversizedRom
  else { s with mem := Memory.writeList s.mem Config.romBase bytes }

/-- `set_key(index, pressed)` (R172): InvalidInputIndex above 15, and then no latch changes. -/
def setKey (index : Nat) (pressed : Bool) (s : State) : State :=
  if 15 < index then s.raise .invalidInputIndex
  else { s with key := s.key.setIfInBounds index pressed }

/-- One timer's tick: down by one while above zero (R196). -/
def tickTimer (t : Byte) : Byte := if t = 0 then 0 else t - 1

/-- `tick_timers()` (R196). -/
def tickTimers (s : State) : State := { s with dt := tickTimer s.dt, st := tickTimer s.st }

/-- `get_display()` (R173): the 2048 cells in index order, `DISP[px + 64 * py]`. -/
def getDisplay (s : State) : List Bool :=
  (List.range 2048).map fun j => s.pixel (j % Config.dispW) (j / Config.dispW)

/-- The outputs that the host sees between any two operations: `DT`, `ST` and the code of `FAULT` (R174). -/
def hostOutputs (s : State) : Byte × Byte × BitVec 3 := (s.dt, s.st, faultCode s.fault)

end Sys2Proof.Machine
end

