-- ==== Sys2Proof/Machine/Trace.lean ====
section
/-! DEFINITION. The operations of the interface as data, and a trace of them (spec/00_scope.md R13, R15,
spec/46_host_operations.md R170, R175): a finite sequence, applied in order, each atomically. -/

namespace Sys2Proof.Machine

/-- One of the seven operations, with its arguments (R170). -/
inductive HostOp where
  | construct
  | reset
  | load (bytes : List Byte)
  | step
  | tickTimers
  | getDisplay
  | setKey (index : Nat) (pressed : Bool)
  deriving DecidableEq, Repr

/-- The state an operation leaves (R170). `get_display` changes none (R173). -/
def applyOp (op : HostOp) (s : State) : Result :=
  match op with
  | .construct => .next (resetOp s)
  | .reset => .next (resetOp s)
  | .load bytes => .next (loadRom bytes s)
  | .step => step s
  | .tickTimers => .next (tickTimers s)
  | .getDisplay => .next s
  | .setKey index pressed => .next (setKey index pressed s)

/-- The state after a trace (R13). -/
def runTrace : List HostOp → State → Result
  | [], s => .next s
  | op :: ops, s =>
    match applyOp op s with
    | .next t => runTrace ops t
    | .fault r => .fault r
    | .refused r => .refused r

end Sys2Proof.Machine
end

