-- ==== Sys2Proof/Safety.lean ====
section
/-! DEFINITION. What the claims are stated in: a run that has not faulted, the machine's invariant
(spec/10_state.md R41), what each instruction may write and what it stores (R21 to R33, spec/20_memory.md R54), where each leaves
`pc` (R25), and which pixels a sprite covers (spec/44_display.md R151). -/

namespace Sys2Proof.Machine

/-- No error condition since the last construct or reset; a faulted state is never a successful end of a run
(R226). -/
def State.running (s : State) : Prop := s.fault = none

/-- The invariants of R41 that the types do not already give: the memory list is canonical, `pc` is at most
0x10FE, and every live return address is at most 0x1000. -/
structure State.Inv (s : State) : Prop where
  memWf : Memory.wf s.mem = true
  pcBound : s.pc.toNat ≤ 0x10FE
  liveSlots : ∀ j, j < s.sp.val → (s.stack[j]?.getD 0).toNat ≤ 0x1000

/-- Whether an instruction may write a general register: its destination, or VF as a flag (R21, R22). -/
def mayWriteV : Instr → Reg → Bool
  | .cls, _ | .ret, _ | .jp _, _ | .call _, _ | .jpV0 _, _ => false
  | .seByte _ _, _ | .sneByte _ _, _ | .seReg _ _, _ | .sneReg _ _, _ => false
  | .ldByte x _, r | .addByte x _, r | .ldReg x _, r | .orReg x _, r | .andReg x _, r | .xorReg x _, r => r == x
  | .addReg x _, r | .subReg x _, r | .shr x _, r | .subnReg x _, r | .shl x _, r => r == x || r == 0xF
  | .rnd x _, r | .ldVxDt x, r | .ldVxK x, r => r == x
  | .drw _ _ _, r => r == 0xF
  | .skp _, _ | .sknp _, _ | .ldDtVx _, _ | .ldStVx _, _ => false
  | .ldI _, _ | .addI _, _ | .ldF _, _ | .ldB _, _ | .storeRegs _, _ => false
  | .loadRegs x, r => decide (r.toNat ≤ x.toNat)

/-- Whether an instruction writes `I`: Annn, Fx1E, Fx29 (R23). -/
def writesI : Instr → Bool
  | .ldI _ | .addI _ | .ldF _ => true
  | _ => false

/-- Whether an instruction writes the call stack or `SP`: 2nnn and 00EE (R27, R28). -/
def writesStack : Instr → Bool
  | .call _ | .ret => true
  | _ => false

/-- Whether an instruction writes the display: 00E0 and Dxyn (R33). -/
def writesDisplay : Instr → Bool
  | .cls | .drw _ _ _ => true
  | _ => false

/-- How many bytes from `I` an instruction writes: Fx33 three, Fx55 `x + 1`, every other none (R54). -/
def storeCount : Instr → Nat
  | .ldB _ => 3
  | .storeRegs x => x.toNat + 1
  | _ => 0

/-- Byte `k` of those an instruction stores: Fx33 the decimal digits of `Vx` (R143), Fx55 register `k` (R144). -/
def storedByte (s : State) : Instr → Nat → Byte
  | .ldB x, 0 => BitVec.ofNat 8 ((s.getV x).toNat / 100)
  | .ldB x, 1 => BitVec.ofNat 8 ((s.getV x).toNat / 10 % 10)
  | .ldB x, _ => BitVec.ofNat 8 ((s.getV x).toNat % 10)
  | .storeRegs _, k => s.getV (BitVec.ofNat 4 k)
  | _, _ => 0

/-- What an address holds after an instruction that raises nothing: the stored byte where it stores (R54), else what
it held before. -/
def byteAfter (s : State) (i : Instr) (a : Nat) : Byte :=
  if s.base ≤ a ∧ a < s.base + storeCount i then storedByte s i (a - s.base) else Memory.read s.mem a

/-- How many bytes from `I` an instruction reads or writes (R54). -/
def accessCount : Instr → Nat
  | .drw _ _ n => n.toNat
  | .ldB _ => 3
  | .storeRegs x | .loadRegs x => x.toNat + 1
  | _ => 0

/-- The condition of the skip instructions (R104 to R107, R160, R161); false for every other instruction. -/
def skipTaken (s : State) : Instr → Bool
  | .seByte x nn => s.getV x == nn
  | .sneByte x nn => s.getV x != nn
  | .seReg x y => s.getV x == s.getV y
  | .sneReg x y => s.getV x != s.getV y
  | .skp x => s.keyDown (s.getV x).toNat
  | .sknp x => !s.keyDown (s.getV x).toNat
  | _ => false

/-- Where an instruction that raises nothing leaves `pc`, fetched from `s.pc` (R25), as a natural number. -/
def nextPc (s : State) : Instr → Nat
  | .jp nnn | .call nnn => nnn.toNat
  | .ret => (s.stack[s.sp.val - 1]?.getD 0).toNat
  | .jpV0 nnn => (s.getV 0).toNat + nnn.toNat
  | .ldVxK _ => if (List.range 16).any s.keyDown then s.pc.toNat + 2 else s.pc.toNat
  | i => if skipTaken s i then s.pc.toNat + 4 else s.pc.toNat + 2

/-- Whether an instruction's own check fails, and with which cause: the one check of R189(3). -/
def raises (s : State) : Instr → Option Cause
  | .call _ => if s.sp.val = 16 then some .stackOverflow else none
  | .ret => if s.sp.val = 0 then some .stackUnderflow else none
  | .skp x | .sknp x => if 15 < (s.getV x).toNat then some .invalidInputIndex else none
  | i => if 0 < accessCount i ∧ 0xFFF < s.base + accessCount i - 1 then some .addressOutOfRange else none

/-- Whether the sprite of `n` bytes at `I`, drawn at `(Vx, Vy)`, has a set bit on the pixel `(px, py)`: some row
below `n` and some column below 8 whose bit is set and whose wrapped place is that pixel (R151). -/
def spriteCovers (s : State) (x y : Reg) (n : Nibble) (px py : Nat) : Prop :=
  ∃ row col, row < n.toNat ∧ col < 8 ∧
    (Memory.read s.mem (s.base + row)).getLsbD (7 - col) = true ∧
    px = ((s.getV x).toNat + col) % 64 ∧ py = ((s.getV y).toNat + row) % 32

end Sys2Proof.Machine
end

