-- ==== Sys2Proof/WellFormed.lean ====
section
/-! DEFINITION. Which instruction words are well formed: the opcode map of spec/30_encoding.md R76 as data, one
row a mask and a pattern, and the check that a word fits a row. Written from the table's mask and match columns,
apart from the decoder (which follows the procedure of R74), so that the two can be held against each other. A
term of `Instr` is well formed by its type: each operand's type is exactly its field (R71, R73). -/

namespace Sys2Proof

/-- One row of the opcode map: a word `w` is this instruction iff `w &&& mask = pattern` (R76). -/
structure Row where
  mnemonic : String
  mask : Word
  pattern : Word
  deriving DecidableEq, Repr

/-- Whether a word fits a row of the map. -/
def fitsRow (r : Row) (w : Word) : Bool := w &&& r.mask == r.pattern

/-- The rows whose first digit is 0 to 7 (R76). -/
def opcodeRowsLow : List Row :=
  [⟨"CLS", 0xFFFF, 0x00E0⟩, ⟨"RET", 0xFFFF, 0x00EE⟩, ⟨"JP nnn", 0xF000, 0x1000⟩, ⟨"CALL nnn", 0xF000, 0x2000⟩,
   ⟨"SE Vx, nn", 0xF000, 0x3000⟩, ⟨"SNE Vx, nn", 0xF000, 0x4000⟩, ⟨"SE Vx, Vy", 0xF00F, 0x5000⟩,
   ⟨"LD Vx, nn", 0xF000, 0x6000⟩, ⟨"ADD Vx, nn", 0xF000, 0x7000⟩]

/-- The rows whose first digit is 8 or 9 (R76). -/
def opcodeRowsAlu : List Row :=
  [⟨"LD Vx, Vy", 0xF00F, 0x8000⟩, ⟨"OR Vx, Vy", 0xF00F, 0x8001⟩, ⟨"AND Vx, Vy", 0xF00F, 0x8002⟩,
   ⟨"XOR Vx, Vy", 0xF00F, 0x8003⟩, ⟨"ADD Vx, Vy", 0xF00F, 0x8004⟩, ⟨"SUB Vx, Vy", 0xF00F, 0x8005⟩,
   ⟨"SHR Vx", 0xF00F, 0x8006⟩, ⟨"SUBN Vx, Vy", 0xF00F, 0x8007⟩, ⟨"SHL Vx", 0xF00F, 0x800E⟩,
   ⟨"SNE Vx, Vy", 0xF00F, 0x9000⟩]

/-- The rows whose first digit is A to F (R76). -/
def opcodeRowsHigh : List Row :=
  [⟨"LD I, nnn", 0xF000, 0xA000⟩, ⟨"JP V0, nnn", 0xF000, 0xB000⟩, ⟨"RND Vx, nn", 0xF000, 0xC000⟩,
   ⟨"DRW Vx, Vy, n", 0xF000, 0xD000⟩, ⟨"SKP Vx", 0xF0FF, 0xE09E⟩, ⟨"SKNP Vx", 0xF0FF, 0xE0A1⟩,
   ⟨"LD Vx, DT", 0xF0FF, 0xF007⟩, ⟨"LD Vx, K", 0xF0FF, 0xF00A⟩, ⟨"LD DT, Vx", 0xF0FF, 0xF015⟩,
   ⟨"LD ST, Vx", 0xF0FF, 0xF018⟩, ⟨"ADD I, Vx", 0xF0FF, 0xF01E⟩, ⟨"LD F, Vx", 0xF0FF, 0xF029⟩,
   ⟨"LD B, Vx", 0xF0FF, 0xF033⟩, ⟨"LD [I], Vx", 0xF0FF, 0xF055⟩, ⟨"LD Vx, [I]", 0xF0FF, 0xF065⟩]

/-- The complete opcode map, 34 rows in the order of R76. -/
def opcodeTable : List Row := opcodeRowsLow ++ opcodeRowsAlu ++ opcodeRowsHigh

/-- A word is well formed iff some row of the map fits it; every other word is illegal (R76, R77). -/
def legalWord (w : Word) : Bool := opcodeTable.any fun r => fitsRow r w

/-- The row of the map, counted from 0, that an instruction belongs to. -/
def rowNumber : Instr → Nat
  | .cls => 0
  | .ret => 1
  | .jp _ => 2
  | .call _ => 3
  | .seByte _ _ => 4
  | .sneByte _ _ => 5
  | .seReg _ _ => 6
  | .ldByte _ _ => 7
  | .addByte _ _ => 8
  | .ldReg _ _ => 9
  | .orReg _ _ => 10
  | .andReg _ _ => 11
  | .xorReg _ _ => 12
  | .addReg _ _ => 13
  | .subReg _ _ => 14
  | .shr _ _ => 15
  | .subnReg _ _ => 16
  | .shl _ _ => 17
  | .sneReg _ _ => 18
  | .ldI _ => 19
  | .jpV0 _ => 20
  | .rnd _ _ => 21
  | .drw _ _ _ => 22
  | .skp _ => 23
  | .sknp _ => 24
  | .ldVxDt _ => 25
  | .ldVxK _ => 26
  | .ldDtVx _ => 27
  | .ldStVx _ => 28
  | .addI _ => 29
  | .ldF _ => 30
  | .ldB _ => 31
  | .storeRegs _ => 32
  | .loadRegs _ => 33

/-- Whether a word fits the row that an instruction belongs to. -/
def fitsInstr (i : Instr) (w : Word) : Bool := opcodeTable[rowNumber i]?.any fun r => fitsRow r w

end Sys2Proof
end

