-- ==== Sys2Proof/Certificates/Slice0/Obligations.lean ====
section
/-! DEFINITION. The statements about the machine, each from numbered rules of spec/. An error condition is taken as
`FAULT <- code` where `FAULT = 0`, everything else unchanged (spec/00_scope.md R11; D3 and D4,
notes/assumptions/3.md): in Lean, `{ s with fault := s.fault.or (some c) }`. An equation `t = { s with v := t.v, pc := .. }` is a frame: no other part of
the state differs, memory included. Register values are compared as natural numbers. `Memory.wf` is the canonical form
that the model chose for memory (notes/assumptions/9.md); `StepKeepsInvariant` says that it lasts. D<n> is a decision
that the spec marks as its own choice (spec/92_eei_decisions.md); the log entry that takes it over stands beside it. -/

open Sys2Proof Sys2Proof.Machine

/-! ## Encoding, fetch, the step -/

/-- Decoding inverts encoding, for every instruction and every operand (spec/30_encoding.md R71, R76). -/
def Obligations.DecodeInvertsEncode : Prop :=
  ∀ i : Instr, decodeWord (encode i) = .ok i

/-- A word decodes to an instruction of a row iff it fits that row's mask and match, and the instruction it decodes
to encodes to that word again (spec/30_encoding.md R74, R76, R77). -/
def Obligations.DecodeAgreesWithOpcodeMap : Prop :=
  (∀ (w : Word) (k : Nat) (r : Row), opcodeTable[k]? = some r →
    (fitsRow r w = true ↔ ∃ i, decodeWord w = .ok i ∧ rowNumber i = k)) ∧
  ∀ (w : Word) (i : Instr), decodeWord w = .ok i → encode i = w

/-- A sanity check on words of the spec's own examples, one or more of each family (spec/95_test_vectors.md; 0x332A is
the example of spec/41_control_flow.md R104). -/
def Obligations.ExampleWordsDecode : Prop :=
  decodeWord 0x00E0#16 = .ok .cls ∧ decodeWord 0x220A#16 = .ok (.call 0x20A) ∧
  decodeWord 0x332A#16 = .ok (.seByte 3 0x2A) ∧ decodeWord 0x8126#16 = .ok (.shr 1 2) ∧
  decodeWord 0xA300#16 = .ok (.ldI 0x300) ∧ decodeWord 0xD012#16 = .ok (.drw 0 1 2) ∧
  decodeWord 0xE49E#16 = .ok (.skp 4) ∧ decodeWord 0xF233#16 = .ok (.ldB 2) ∧
  decodeWord 0x0000#16 = .error .zeroGroup ∧ decodeWord 0xF102#16 = .error .fGroup

/-- A step of a core that is not faulted, whose two bytes at `pc` decode to an instruction, is `exec` of that
instruction at that state (spec/40_step_cycle.md R90, R93). That `exec` starts at the instruction's own address and
itself makes the advance of `pc`, which R90 makes before it, is the model's choice (notes/assumptions/4.md). -/
def Obligations.StepRunsDecodedInstruction : Prop :=
  ∀ (s : State) (i : Instr), s.fault = none → s.pc.toNat + 1 ≤ 0xFFF →
    decodeWord (Memory.read s.mem s.pc.toNat ++ Memory.read s.mem (s.pc.toNat + 1)) = .ok i → step s = exec i s

/-- R91: the fetch reads two bytes big end first at any parity, and raises AddressOutOfRange where the second one
lies above 0xFFF. What the step then does with the word is R90, R93 and R94, in the form the model chose: `exec` makes
the advance of `pc` (notes/assumptions/4.md) and a raise changes nothing but the latch (D4, notes/assumptions/3.md). -/
def Obligations.FetchReadsTwoBytesOrFaults : Prop :=
  ∀ s : State, s.fault = none →
    (s.pc.toNat + 1 ≤ 0xFFF →
      fetch? s = some (Memory.read s.mem s.pc.toNat ++ Memory.read s.mem (s.pc.toNat + 1)) ∧
      step s = (match decodeWord (Memory.read s.mem s.pc.toNat ++ Memory.read s.mem (s.pc.toNat + 1)) with
        | .ok i => exec i s
        | .error _ => .next { s with fault := some .unimplementedOpcode })) ∧
    (0xFFF < s.pc.toNat + 1 → step s = .next { s with fault := some .addressOutOfRange })

/-- R75: a word that decodes to no instruction, which is a word of no row of the map, raises UnimplementedOpcode when a
step fetches it; nothing else changes. -/
def Obligations.IllegalWordRaisesUnimplementedOpcode : Prop :=
  (∀ w : Word, legalWord w = false ↔ ∃ e, decodeWord w = .error e) ∧
  ∀ (s : State) (w : Word), s.fault = none → fetch? s = some w → legalWord w = false →
    step s = .next { s with fault := some .unimplementedOpcode }

/-- A step of a faulted core changes nothing, and no operation but reset and construct ends the fault
(spec/40_step_cycle.md R95; D18, notes/assumptions/3.md). -/
def Obligations.FaultedCoreStepChangesNothing : Prop :=
  ∀ s : State, s.fault ≠ none → step s = .next s ∧
    (∀ op, op ≠ .reset → op ≠ .construct → ∃ t, applyOp op s = .next t ∧ t.fault ≠ none) ∧
    ∃ r c, applyOp .reset s = .next r ∧ r.fault = none ∧ applyOp .construct s = .next c ∧ c.fault = none

/-- Every step answers a next state: no error condition leaves the machine (spec/40_step_cycle.md R90, R94; D3,
notes/assumptions/3.md). -/
def Obligations.StepAlwaysAnswersNext : Prop :=
  ∀ s : State, ∃ t, step s = .next t

/-- A step that faults changes nothing but the latch: the decision D4, which the rules mark as the spec's own
(spec/40_step_cycle.md R94, spec/60_exceptions.md R190, R191; notes/assumptions/3.md). -/
def Obligations.FaultingStepCommitsNothing : Prop :=
  ∀ s t : State, s.fault = none → step s = .next t → t.fault ≠ none → ∃ c, t = { s with fault := some c }

/-- R25: where each step leaves `pc`, and what 2nnn pushes. A step that faults leaves `pc` at `a`. -/
def Obligations.EachStepLeavesPcAsStated : Prop :=
  (∀ s t : State, s.fault = none → step s = .next t → t.fault ≠ none → t.pc = s.pc) ∧
  ∀ (s t : State) (w : Word) (i : Instr), s.fault = none → fetch? s = some w → decodeWord w = .ok i →
    step s = .next t → t.fault = none → t.pc.toNat = nextPc s i ∧
      ((∃ nnn, i = .call nnn) → t.stack[s.sp.val]? = some (s.pc + 2))

/-- The one check that each instruction has decides whether it raises, and which cause (spec/60_exceptions.md R182 to
R185, R189). The check of Ex9E and ExA1 is D9 (notes/assumptions/6.md), the state left is D4 (notes/assumptions/3.md).
`exec` tests no latch itself, so that the statement also speaks of states already faulted, where the earlier cause is
kept, is the model's choice (notes/assumptions/13.md). -/
def Obligations.InstructionRaisesExactlyItsCheck : Prop :=
  ∀ (s : State) (i : Instr),
    (∀ c, raises s i = some c → exec i s = .next { s with fault := s.fault.or (some c) }) ∧
    (raises s i = none → ∃ t, exec i s = .next t ∧ t.fault = s.fault)

/-- An instruction placed at `pc` is what the next step runs, for every instruction and every operand
(spec/20_memory.md R50, spec/30_encoding.md R70; the placing is the model's own, notes/assumptions/10.md). -/
def Obligations.PlacedInstructionIsRun : Prop :=
  ∀ (s : State) (i : Instr), s.fault = none → s.pc.toNat ≤ 0xFFE → Memory.wf s.mem = true →
    step (s.withFetchWord 16 (encode i).toNat) = exec i (s.withFetchWord 16 (encode i).toNat)

/-! ## Frames over all instructions -/

/-- No instruction changes a general register but its destination, VF where it writes a flag, and V0..Vx for Fx65
(spec/10_state.md R21, R22). -/
def Obligations.RegisterFrame : Prop :=
  ∀ (i : Instr) (s t : State), exec i s = .next t → ∀ r, mayWriteV i r = false → t.getV r = s.getV r

/-- Only Annn, Fx1E and Fx29 change `I`; only 2nnn and 00EE change the stack or `SP`, 00EE no slot and 2nnn no live
one (spec/10_state.md R23, R27, R28, R29). That Fx55 and Fx65 leave `I` is D17 (notes/assumptions/15.md); that 00EE
leaves the popped slot is D19 (notes/assumptions/8.md). -/
def Obligations.IndexAndStackFrame : Prop :=
  ∀ (i : Instr) (s t : State), exec i s = .next t →
    (writesI i = false → t.i = s.i) ∧
    (writesStack i = false → t.stack = s.stack ∧ t.sp = s.sp) ∧
    (i = .ret → t.stack = s.stack) ∧
    ∀ j, j < s.sp.val → t.stack[j]? = s.stack[j]?

/-- Only Fx15 changes `DT`, only Fx18 `ST`; no instruction changes a key latch (spec/10_state.md R30, R31, R32,
spec/40_step_cycle.md R97). Only Cxnn advances the draw counter, the model's own field (notes/assumptions/1.md). No
instruction changes a latched fault: D3 (R35, notes/assumptions/3.md), said of `exec`, which the model lets run on
faulted states too (notes/assumptions/13.md). -/
def Obligations.TimerKeyAndFaultFrame : Prop :=
  ∀ (i : Instr) (s t : State), exec i s = .next t →
    ((∀ x, i ≠ .ldDtVx x) → t.dt = s.dt) ∧ ((∀ x, i ≠ .ldStVx x) → t.st = s.st) ∧ t.key = s.key ∧
    ((∀ x nn, i ≠ .rnd x nn) → t.draws = s.draws) ∧ (s.fault ≠ none → t.fault = s.fault)

/-- Only 00E0 and Dxyn change a pixel (spec/10_state.md R33). -/
def Obligations.DisplayFrame : Prop :=
  ∀ (i : Instr) (s t : State), exec i s = .next t → writesDisplay i = false →
    ∀ px py, t.pixel px py = s.pixel px py

/-- Every byte of memory outside the bytes an instruction stores to reads as before: Fx33 stores to `I`..`I + 2`,
Fx55 to `I`..`I + x`, every other instruction nowhere (spec/20_memory.md R54). -/
def Obligations.MemoryFrame : Prop :=
  ∀ (i : Instr) (s t : State), Memory.wf s.mem = true → exec i s = .next t →
    ∀ a, ¬ (s.base ≤ a ∧ a < s.base + storeCount i) → Memory.read t.mem a = Memory.read s.mem a

/-! ## Control flow -/

/-- R100. That the popped slot keeps its contents is D19 (R29, notes/assumptions/8.md). -/
def Obligations.ReturnPopsIntoPc : Prop :=
  decodeWord 0x00EE#16 = .ok .ret ∧
  ∀ s : State,
    (s.sp.val = 0 → exec .ret s = .next { s with fault := s.fault.or (some .stackUnderflow) }) ∧
    (0 < s.sp.val → ∃ t, exec .ret s = .next t ∧ t.sp.val = s.sp.val - 1 ∧
      s.stack[s.sp.val - 1]? = some t.pc ∧ t = { s with sp := t.sp, pc := t.pc })

/-- R101. -/
def Obligations.JumpSetsPc : Prop :=
  (∀ nnn : Addr, decodeWord (0x1#4 ++ nnn) = .ok (.jp nnn)) ∧
  ∀ (nnn : Addr) (s : State), ∃ t, exec (.jp nnn) s = .next t ∧ t.pc.toNat = nnn.toNat ∧ t = { s with pc := t.pc }

/-- R102. -/
def Obligations.CallPushesReturnAddress : Prop :=
  (∀ nnn : Addr, decodeWord (0x2#4 ++ nnn) = .ok (.call nnn)) ∧
  ∀ (nnn : Addr) (s : State),
    (s.sp.val = 16 → exec (.call nnn) s = .next { s with fault := s.fault.or (some .stackOverflow) }) ∧
    (s.sp.val < 16 → ∃ t, exec (.call nnn) s = .next t ∧ t.stack[s.sp.val]? = some (s.pc + 2) ∧
      (∀ j, j ≠ s.sp.val → t.stack[j]? = s.stack[j]?) ∧ t.sp.val = s.sp.val + 1 ∧ t.pc.toNat = nnn.toNat ∧
      t = { s with stack := t.stack, sp := t.sp, pc := t.pc })

/-- R103: the sum is not reduced modulo 4096 and the base is V0. Where the sum is 0xFFF or more, the next fetch
raises. -/
def Obligations.IndexedJumpAddsV0 : Prop :=
  (∀ nnn : Addr, decodeWord (0xB#4 ++ nnn) = .ok (.jpV0 nnn)) ∧
  ∀ (nnn : Addr) (s : State), ∃ t, exec (.jpV0 nnn) s = .next t ∧
    t.pc.toNat = (s.getV 0).toNat + nnn.toNat ∧ t = { s with pc := t.pc } ∧
    (s.fault = none → 0xFFF ≤ (s.getV 0).toNat + nnn.toNat →
      step t = .next { t with fault := some .addressOutOfRange })

/-- R104 and R105. -/
def Obligations.SkipsOnByteCompare : Prop :=
  (∀ (x : Reg) (nn : Byte), decodeWord (0x3#4 ++ x ++ nn) = .ok (.seByte x nn) ∧
    decodeWord (0x4#4 ++ x ++ nn) = .ok (.sneByte x nn)) ∧
  ∀ (x : Reg) (nn : Byte) (s : State),
    exec (.seByte x nn) s = .next { s with pc := if s.getV x = nn then s.pc + 4 else s.pc + 2 } ∧
    exec (.sneByte x nn) s = .next { s with pc := if s.getV x = nn then s.pc + 2 else s.pc + 4 }

/-- R106 and R107. -/
def Obligations.SkipsOnRegisterCompare : Prop :=
  (∀ x y : Reg, decodeWord (0x5#4 ++ x ++ y ++ 0x0#4) = .ok (.seReg x y) ∧
    decodeWord (0x9#4 ++ x ++ y ++ 0x0#4) = .ok (.sneReg x y)) ∧
  (∀ x y n : Nibble, n ≠ 0 → decodeWord (0x5#4 ++ x ++ y ++ n) = .error .fiveGroup ∧
    decodeWord (0x9#4 ++ x ++ y ++ n) = .error .nineGroup) ∧
  ∀ (x y : Reg) (s : State),
    exec (.seReg x y) s = .next { s with pc := if s.getV x = s.getV y then s.pc + 4 else s.pc + 2 } ∧
    exec (.sneReg x y) s = .next { s with pc := if s.getV x = s.getV y then s.pc + 2 else s.pc + 4 }

/-! ## Load and arithmetic -/

/-- R120. -/
def Obligations.LoadByteSetsRegister : Prop :=
  (∀ (x : Reg) (nn : Byte), decodeWord (0x6#4 ++ x ++ nn) = .ok (.ldByte x nn)) ∧
  ∀ (x : Reg) (nn : Byte) (s : State), ∃ t, exec (.ldByte x nn) s = .next t ∧
    (∀ r, t.getV r = if r = x then nn else s.getV r) ∧ t = { s with v := t.v, pc := s.pc + 2 }

/-- R121: no flag; VF changes only where it is the destination. -/
def Obligations.AddByteWrapsWithoutFlag : Prop :=
  (∀ (x : Reg) (nn : Byte), decodeWord (0x7#4 ++ x ++ nn) = .ok (.addByte x nn)) ∧
  ∀ (x : Reg) (nn : Byte) (s : State), ∃ t, exec (.addByte x nn) s = .next t ∧
    (∀ r, (t.getV r).toNat = if r = x then ((s.getV x).toNat + nn.toNat) % 256 else (s.getV r).toNat) ∧
    t = { s with v := t.v, pc := s.pc + 2 }

/-- R122. -/
def Obligations.LoadRegisterCopies : Prop :=
  (∀ x y : Reg, decodeWord (0x8#4 ++ x ++ y ++ 0x0#4) = .ok (.ldReg x y)) ∧
  ∀ (x y : Reg) (s : State), ∃ t, exec (.ldReg x y) s = .next t ∧
    (∀ r, t.getV r = if r = x then s.getV y else s.getV r) ∧ t = { s with v := t.v, pc := s.pc + 2 }

/-- R123, R124, R125: bit by bit, VF changed only where it is the destination. -/
def Obligations.LogicIsBitwiseWithoutFlag : Prop :=
  (∀ x y : Reg, decodeWord (0x8#4 ++ x ++ y ++ 0x1#4) = .ok (.orReg x y) ∧
    decodeWord (0x8#4 ++ x ++ y ++ 0x2#4) = .ok (.andReg x y) ∧
    decodeWord (0x8#4 ++ x ++ y ++ 0x3#4) = .ok (.xorReg x y)) ∧
  ∀ (x y : Reg) (s : State), ∃ o a e, exec (.orReg x y) s = .next o ∧ exec (.andReg x y) s = .next a ∧
    exec (.xorReg x y) s = .next e ∧
    (∀ b, (o.getV x).getLsbD b = ((s.getV x).getLsbD b || (s.getV y).getLsbD b)) ∧
    (∀ b, (a.getV x).getLsbD b = ((s.getV x).getLsbD b && (s.getV y).getLsbD b)) ∧
    (∀ b, (e.getV x).getLsbD b = ((s.getV x).getLsbD b ^^ (s.getV y).getLsbD b)) ∧
    (∀ r, r ≠ x → o.getV r = s.getV r ∧ a.getV r = s.getV r ∧ e.getV r = s.getV r) ∧
    o = { s with v := o.v, pc := s.pc + 2 } ∧ a = { s with v := a.v, pc := s.pc + 2 } ∧
    e = { s with v := e.v, pc := s.pc + 2 }

/-- R126. With `x = F` the carry is what is left in VF (D8, notes/assumptions/7.md). -/
def Obligations.AddRegisterWrapsThenCarry : Prop :=
  (∀ x y : Reg, decodeWord (0x8#4 ++ x ++ y ++ 0x4#4) = .ok (.addReg x y)) ∧
  ∀ (x y : Reg) (s : State), ∃ t, exec (.addReg x y) s = .next t ∧
    (t.getV 0xF).toNat = (if 255 < (s.getV x).toNat + (s.getV y).toNat then 1 else 0) ∧
    (x ≠ 0xF → (t.getV x).toNat = ((s.getV x).toNat + (s.getV y).toNat) % 256) ∧
    (∀ r, r ≠ x → r ≠ 0xF → t.getV r = s.getV r) ∧ t = { s with v := t.v, pc := s.pc + 2 }

/-- R127. With `x = F` the flag is what is left in VF (D8, notes/assumptions/7.md). -/
def Obligations.SubtractWrapsThenNoBorrow : Prop :=
  (∀ x y : Reg, decodeWord (0x8#4 ++ x ++ y ++ 0x5#4) = .ok (.subReg x y)) ∧
  ∀ (x y : Reg) (s : State), ∃ t, exec (.subReg x y) s = .next t ∧
    (t.getV 0xF).toNat = (if (s.getV y).toNat ≤ (s.getV x).toNat then 1 else 0) ∧
    (x ≠ 0xF → (t.getV x).toNat = ((s.getV x).toNat + 256 - (s.getV y).toNat) % 256) ∧
    (∀ r, r ≠ x → r ≠ 0xF → t.getV r = s.getV r) ∧ t = { s with v := t.v, pc := s.pc + 2 }

/-- R128: `y` is ignored. With `x = F` the shifted value is what is left in VF (D8, notes/assumptions/7.md). -/
def Obligations.ShiftRightInPlace : Prop :=
  (∀ x y : Reg, decodeWord (0x8#4 ++ x ++ y ++ 0x6#4) = .ok (.shr x y)) ∧
  ∀ (x y : Reg) (s : State), ∃ t, exec (.shr x y) s = .next t ∧
    (t.getV x).toNat = (s.getV x).toNat / 2 ∧
    (x ≠ 0xF → (t.getV 0xF).toNat = (s.getV x).toNat % 2) ∧
    (∀ r, r ≠ x → r ≠ 0xF → t.getV r = s.getV r) ∧ t = { s with v := t.v, pc := s.pc + 2 }

/-- R129. With `x = F` the flag is what is left in VF (D8, notes/assumptions/7.md). -/
def Obligations.SubtractReversedWrapsThenNoBorrow : Prop :=
  (∀ x y : Reg, decodeWord (0x8#4 ++ x ++ y ++ 0x7#4) = .ok (.subnReg x y)) ∧
  ∀ (x y : Reg) (s : State), ∃ t, exec (.subnReg x y) s = .next t ∧
    (t.getV 0xF).toNat = (if (s.getV x).toNat ≤ (s.getV y).toNat then 1 else 0) ∧
    (x ≠ 0xF → (t.getV x).toNat = ((s.getV y).toNat + 256 - (s.getV x).toNat) % 256) ∧
    (∀ r, r ≠ x → r ≠ 0xF → t.getV r = s.getV r) ∧ t = { s with v := t.v, pc := s.pc + 2 }

/-- R130: `y` is ignored. With `x = F` the shifted value is what is left in VF (D8, notes/assumptions/7.md). -/
def Obligations.ShiftLeftInPlace : Prop :=
  (∀ x y : Reg, decodeWord (0x8#4 ++ x ++ y ++ 0xE#4) = .ok (.shl x y)) ∧
  ∀ (x y : Reg) (s : State), ∃ t, exec (.shl x y) s = .next t ∧
    (t.getV x).toNat = (s.getV x).toNat * 2 % 256 ∧
    (x ≠ 0xF → (t.getV 0xF).toNat = (s.getV x).toNat / 128) ∧
    (∀ r, r ≠ x → r ≠ 0xF → t.getV r = s.getV r) ∧ t = { s with v := t.v, pc := s.pc + 2 }

/-- Cxnn ANDs the drawn byte with `nn` (spec/42_load_alu.md R131). That the draws are numbered by a counter is the
model's choice (notes/assumptions/1.md); the statement holds for every value of the counter and of every draw. -/
def Obligations.RandomDrawsOneByteMasked : Prop :=
  (∀ (x : Reg) (nn : Byte), decodeWord (0xC#4 ++ x ++ nn) = .ok (.rnd x nn)) ∧
  ∀ (x : Reg) (nn : Byte) (s : State), ∃ t, exec (.rnd x nn) s = .next t ∧
    (∀ b, (t.getV x).getLsbD b = ((Config.rnd s.draws).getLsbD b && nn.getLsbD b)) ∧
    (∀ r, r ≠ x → t.getV r = s.getV r) ∧ t = { s with v := t.v, pc := s.pc + 2, draws := s.draws + 1 }

/-! ## The address register and memory -/

/-- R140. -/
def Obligations.LoadIndexSetsI : Prop :=
  (∀ nnn : Addr, decodeWord (0xA#4 ++ nnn) = .ok (.ldI nnn)) ∧
  ∀ (nnn : Addr) (s : State), ∃ t, exec (.ldI nnn) s = .next t ∧ t.i.toNat = nnn.toNat ∧
    t = { s with i := t.i, pc := s.pc + 2 }

/-- R141: wraps at 16 bits, no flag. -/
def Obligations.AddIndexWrapsAtSixteenBits : Prop :=
  (∀ x : Reg, decodeWord (0xF#4 ++ x ++ 0x1E#8) = .ok (.addI x)) ∧
  ∀ (x : Reg) (s : State), ∃ t, exec (.addI x) s = .next t ∧
    t.i.toNat = (s.i.toNat + (s.getV x).toNat) % 65536 ∧ t = { s with i := t.i, pc := s.pc + 2 }

/-- R142: the whole byte is multiplied. -/
def Obligations.GlyphAddressIsFiveTimesVx : Prop :=
  (∀ x : Reg, decodeWord (0xF#4 ++ x ++ 0x29#8) = .ok (.ldF x)) ∧
  ∀ (x : Reg) (s : State), ∃ t, exec (.ldF x) s = .next t ∧ t.i.toNat = 5 * (s.getV x).toNat ∧
    t = { s with i := t.i, pc := s.pc + 2 }

/-- R143. -/
def Obligations.DecimalDigitsStored : Prop :=
  (∀ x : Reg, decodeWord (0xF#4 ++ x ++ 0x33#8) = .ok (.ldB x)) ∧
  ∀ (x : Reg) (s : State), Memory.wf s.mem = true →
    (0xFFF < s.base + 2 → exec (.ldB x) s = .next { s with fault := s.fault.or (some .addressOutOfRange) }) ∧
    (s.base + 2 ≤ 0xFFF → ∃ t, exec (.ldB x) s = .next t ∧
      (Memory.read t.mem s.base).toNat = (s.getV x).toNat / 100 ∧
      (Memory.read t.mem (s.base + 1)).toNat = (s.getV x).toNat / 10 % 10 ∧
      (Memory.read t.mem (s.base + 2)).toNat = (s.getV x).toNat % 10 ∧
      (∀ a, a < s.base ∨ s.base + 2 < a → Memory.read t.mem a = Memory.read s.mem a) ∧
      t = { s with mem := t.mem, pc := s.pc + 2 })

/-- R144: `x + 1` registers to ascending addresses. `I` is unchanged (D17, notes/assumptions/15.md). -/
def Obligations.RegistersStored : Prop :=
  (∀ x : Reg, decodeWord (0xF#4 ++ x ++ 0x55#8) = .ok (.storeRegs x)) ∧
  ∀ (x : Reg) (s : State), Memory.wf s.mem = true →
    (0xFFF < s.base + x.toNat →
      exec (.storeRegs x) s = .next { s with fault := s.fault.or (some .addressOutOfRange) }) ∧
    (s.base + x.toNat ≤ 0xFFF → ∃ t, exec (.storeRegs x) s = .next t ∧
      (∀ k : Reg, k.toNat ≤ x.toNat → Memory.read t.mem (s.base + k.toNat) = s.getV k) ∧
      (∀ a, a < s.base ∨ s.base + x.toNat < a → Memory.read t.mem a = Memory.read s.mem a) ∧
      t = { s with mem := t.mem, pc := s.pc + 2 })

/-- R145: `x + 1` registers from ascending addresses. `I` is unchanged (D17, notes/assumptions/15.md). -/
def Obligations.RegistersLoaded : Prop :=
  (∀ x : Reg, decodeWord (0xF#4 ++ x ++ 0x65#8) = .ok (.loadRegs x)) ∧
  ∀ (x : Reg) (s : State),
    (0xFFF < s.base + x.toNat →
      exec (.loadRegs x) s = .next { s with fault := s.fault.or (some .addressOutOfRange) }) ∧
    (s.base + x.toNat ≤ 0xFFF → ∃ t, exec (.loadRegs x) s = .next t ∧
      (∀ k : Reg, t.getV k = if k.toNat ≤ x.toNat then Memory.read s.mem (s.base + k.toNat) else s.getV k) ∧
      t = { s with v := t.v, pc := s.pc + 2 })

/-- Storing V0..Vx and later loading them through untouched memory with the same `I` recovers every value,
whatever happened to the registers in between (spec/43_index_memory.md R144, R145). -/
def Obligations.StoreThenLoadRecoversRegisters : Prop :=
  ∀ (x : Reg) (s t u : State), Memory.wf s.mem = true → s.base + x.toNat ≤ 0xFFF →
    exec (.storeRegs x) s = .next t → u.mem = t.mem → u.i = t.i →
    ∃ w, exec (.loadRegs x) u = .next w ∧ ∀ k : Reg, k.toNat ≤ x.toNat → w.getV k = s.getV k

/-- A store to bytes of the instruction that the very next step fetches is what that step runs, whichever of its two
bytes the store covers and wherever it begins: Fx33 and Fx55 are the instructions that store (spec/20_memory.md R54,
R63). -/
def Obligations.StoredWordIsFetchedNext : Prop :=
  ∀ (i j : Instr) (s : State), storeCount i ≠ 0 → raises s i = none → s.fault = none → Memory.wf s.mem = true →
    s.pc.toNat + 3 ≤ 0xFFF →
    decodeWord (byteAfter s i (s.pc.toNat + 2) ++ byteAfter s i (s.pc.toNat + 3)) = .ok j →
    ∃ t, exec i s = .next t ∧ step t = exec j t

/-! ## Display -/

/-- R150. -/
def Obligations.ClearTurnsEveryPixelOff : Prop :=
  decodeWord 0x00E0#16 = .ok .cls ∧
  ∀ s : State, ∃ t, exec .cls s = .next t ∧ (∀ px py, t.pixel px py = false) ∧
    t = { s with disp := t.disp, pc := s.pc + 2 }

/-- R151: each pixel the sprite covers is toggled and no other; VF tells whether one of them was set. With `x = F` or
`y = F` the old VF is the coordinate and the flag is left (D8, notes/assumptions/7.md). -/
def Obligations.DrawTogglesCoveredPixels : Prop :=
  (∀ x y n : Nibble, decodeWord (0xD#4 ++ x ++ y ++ n) = .ok (.drw x y n)) ∧
  ∀ (x y : Reg) (n : Nibble) (s : State),
    (0 < n.toNat ∧ 0xFFF < s.base + n.toNat - 1 →
      exec (.drw x y n) s = .next { s with fault := s.fault.or (some .addressOutOfRange) }) ∧
    (n.toNat = 0 ∨ s.base + n.toNat - 1 ≤ 0xFFF → ∃ t, exec (.drw x y n) s = .next t ∧
      (∀ px py, px < 64 → py < 32 →
        (spriteCovers s x y n px py → t.pixel px py = !s.pixel px py) ∧
        (¬ spriteCovers s x y n px py → t.pixel px py = s.pixel px py)) ∧
      ((∃ px py, spriteCovers s x y n px py ∧ s.pixel px py = true) → t.getV 0xF = 1) ∧
      ((¬ ∃ px py, spriteCovers s x y n px py ∧ s.pixel px py = true) → t.getV 0xF = 0) ∧
      (∀ r, r ≠ 0xF → t.getV r = s.getV r) ∧ t = { s with v := t.v, disp := t.disp, pc := s.pc + 2 })

/-- Drawing the same sprite twice at the same place restores the whole display; and where the first draw hit nothing
and the sprite has a set bit, the second one reports a collision (spec/44_display.md R152). With `x = F` or `y = F` the
first draw's flag moves the second draw, so the two are not at the same place. -/
def Obligations.DrawingTwiceCancels : Prop :=
  ∀ (x y : Reg) (n : Nibble) (s : State), x ≠ 0xF → y ≠ 0xF → (n.toNat = 0 ∨ s.base + n.toNat - 1 ≤ 0xFFF) →
    ∃ t u, exec (.drw x y n) s = .next t ∧ exec (.drw x y n) t = .next u ∧ u.disp = s.disp ∧
      (t.getV 0xF = 0 → (∃ px py, spriteCovers s x y n px py) → u.getV 0xF = 1)

/-! ## Keypad and timers -/

/-- R160, R161 and R166. A key index above 15 raises and is never masked (D9, notes/assumptions/6.md); Fx0A, which takes
no index, raises nothing. -/
def Obligations.KeySkipsReadTheLatch : Prop :=
  (∀ x : Reg, decodeWord (0xE#4 ++ x ++ 0x9E#8) = .ok (.skp x) ∧
    decodeWord (0xE#4 ++ x ++ 0xA1#8) = .ok (.sknp x)) ∧
  ∀ (x : Reg) (s : State), (∃ t, exec (.ldVxK x) s = .next t ∧ t.fault = s.fault) ∧
    (15 < (s.getV x).toNat →
      exec (.skp x) s = .next { s with fault := s.fault.or (some .invalidInputIndex) } ∧
      exec (.sknp x) s = .next { s with fault := s.fault.or (some .invalidInputIndex) }) ∧
    ∀ down, s.key[(s.getV x).toNat]? = some down →
      exec (.skp x) s = .next { s with pc := if down = true then s.pc + 4 else s.pc + 2 } ∧
      exec (.sknp x) s = .next { s with pc := if down = true then s.pc + 2 else s.pc + 4 }

/-- R162: with no key pressed nothing changes at all. With several pressed the lowest index is delivered (D10,
notes/assumptions/5.md). -/
def Obligations.KeyWaitSpinsOrDelivers : Prop :=
  (∀ x : Reg, decodeWord (0xF#4 ++ x ++ 0x0A#8) = .ok (.ldVxK x)) ∧
  ∀ (x : Reg) (s : State),
    ((∀ k, k < 16 → s.key[k]? = some false) → exec (.ldVxK x) s = .next s) ∧
    ∀ k, s.key[k]? = some true → (∀ j, j < k → s.key[j]? = some false) →
      ∃ t, exec (.ldVxK x) s = .next t ∧ (t.getV x).toNat = k ∧ (∀ r, r ≠ x → t.getV r = s.getV r) ∧
        t = { s with v := t.v, pc := s.pc + 2 }

/-- R163, R164, R165. -/
def Obligations.TimerTransfersCopy : Prop :=
  (∀ x : Reg, decodeWord (0xF#4 ++ x ++ 0x07#8) = .ok (.ldVxDt x) ∧
    decodeWord (0xF#4 ++ x ++ 0x15#8) = .ok (.ldDtVx x) ∧ decodeWord (0xF#4 ++ x ++ 0x18#8) = .ok (.ldStVx x)) ∧
  ∀ (x : Reg) (s : State),
    (∃ t, exec (.ldVxDt x) s = .next t ∧ (∀ r, t.getV r = if r = x then s.dt else s.getV r) ∧
      t = { s with v := t.v, pc := s.pc + 2 }) ∧
    exec (.ldDtVx x) s = .next { s with dt := s.getV x, pc := s.pc + 2 } ∧
    exec (.ldStVx x) s = .next { s with st := s.getV x, pc := s.pc + 2 }

/-- No instruction reads `ST`: with another value in it, an instruction does the same to every other part of the
state (spec/10_state.md R31, spec/60_exceptions.md R197). For Cxnn the two executions are given the same drawn byte:
they hold the same draw counter, the model's own (notes/assumptions/1.md). -/
def Obligations.SoundTimerIsNeverRead : Prop :=
  ∀ (i : Instr) (s t : State) (b : Byte), exec i s = .next t →
    (∀ x, i = .ldStVx x → exec i { s with st := b } = .next t) ∧
    ((∀ x, i ≠ .ldStVx x) → exec i { s with st := b } = .next { t with st := b })

/-! ## Host operations -/

/-- R196: each timer counts down by one a tick and holds at 0, nothing else changes, faulted or not. -/
def Obligations.TicksCountDownToZero : Prop :=
  ∀ (n : Nat) (s : State), ∃ t, runTrace (List.replicate n .tickTimers) s = .next t ∧
    t.dt.toNat = s.dt.toNat - n ∧ t.st.toNat = s.st.toNat - n ∧ t = { s with dt := t.dt, st := t.st }

/-- R171. An oversized payload latches the fault and copies nothing (D16, notes/assumptions/3.md). -/
def Obligations.LoadCopiesPayloadOrFaults : Prop :=
  ∀ (bytes : List Byte) (s : State), Memory.wf s.mem = true →
    (3584 < bytes.length →
      applyOp (.load bytes) s = .next { s with fault := s.fault.or (some .oversizedRom) }) ∧
    (bytes.length ≤ 3584 → ∃ t, applyOp (.load bytes) s = .next t ∧
      (∀ k b, bytes[k]? = some b → Memory.read t.mem (0x200 + k) = b) ∧
      (∀ a, a < 0x200 ∨ 0x200 + bytes.length ≤ a → Memory.read t.mem a = Memory.read s.mem a) ∧
      t = { s with mem := t.mem })

/-- R172. An index out of range latches the fault and writes nothing (D16, notes/assumptions/3.md). -/
def Obligations.SetKeyWritesOneLatchOrFaults : Prop :=
  ∀ (k : Nat) (pressed : Bool) (s : State),
    (15 < k → applyOp (.setKey k pressed) s = .next { s with fault := s.fault.or (some .invalidInputIndex) }) ∧
    (k ≤ 15 → ∃ t, applyOp (.setKey k pressed) s = .next t ∧ t.key[k]? = some pressed ∧
      (∀ j, j ≠ k → t.key[j]? = s.key[j]?) ∧ t = { s with key := t.key })

/-- R173. -/
def Obligations.GetDisplayShowsEveryCell : Prop :=
  ∀ s : State, applyOp .getDisplay s = .next s ∧ (getDisplay s).length = 2048 ∧
    ∀ px py, px < 64 → py < 32 → (getDisplay s)[px + 64 * py]? = some (s.pixel px py)

/-- The host sees the two timers and the code of the latch, with the codes in the order of the taxonomy, and no code
stands for two causes (spec/46_host_operations.md R174, spec/60_exceptions.md R180, spec/10_state.md R35). The numbers
are D2 (notes/assumptions/20.md) and the outputs are D22 (notes/assumptions/21.md). -/
def Obligations.HostSeesTimersAndFaultCode : Prop :=
  (∀ s : State, hostOutputs s = (s.dt, s.st, faultCode s.fault)) ∧
  ([none, some .unimplementedOpcode, some .stackOverflow, some .stackUnderflow, some .addressOutOfRange,
    some .invalidInputIndex, some .oversizedRom].map fun f => (faultCode f).toNat) = [0, 1, 2, 3, 4, 5, 6] ∧
  ∀ f g : Option Cause, faultCode f = faultCode g → f = g

/-- R39 and R212: reset and construct leave the same state, every field at the value of R39's table, the key latches
too (D21, notes/assumptions/14.md); FONT is whatever constant the model holds (notes/assumptions/2.md). The draw counter
is no state of the spec (notes/assumptions/1.md). -/
def Obligations.ResetLeavesStatedValues : Prop :=
  ∀ s : State, ∃ t, applyOp .reset s = .next t ∧ applyOp .construct s = .next t ∧
    (∀ r, t.getV r = 0) ∧ t.i = 0 ∧ t.pc = 0x200 ∧ t.sp = 0 ∧ (∀ j, j < 16 → t.stack[j]? = some 0) ∧
    t.dt = 0 ∧ t.st = 0 ∧ (∀ k, k < 16 → t.key[k]? = some false) ∧ (∀ px py, t.pixel px py = false) ∧
    (∀ a, a < 80 → some (Memory.read t.mem a) = font[a]?) ∧ (∀ a, 80 ≤ a → Memory.read t.mem a = 0) ∧
    t.fault = none ∧ State.reset = { t with draws := 0 }

/-! ## Whole-machine rules -/

/-- A call followed by a return resumes after the call with the stack pointer and every other slot as they were
(spec/41_control_flow.md R100, R102). That the popped slot keeps the return address is D19 (spec/10_state.md R29,
notes/assumptions/8.md). -/
def Obligations.CallThenReturnResumes : Prop :=
  ∀ (nnn : Addr) (s : State), s.sp.val < 16 →
    ∃ t u, exec (.call nnn) s = .next t ∧ exec .ret t = .next u ∧ u.stack[s.sp.val]? = some (s.pc + 2) ∧
      (∀ j, j ≠ s.sp.val → u.stack[j]? = s.stack[j]?) ∧ u = { s with stack := u.stack, pc := s.pc + 2 }

/-- The first cause since reset is kept over every trace without a reset or construct: the decision D3, which the rules
mark as the spec's own (spec/10_state.md R35, R41(d), spec/60_exceptions.md R189; notes/assumptions/3.md). -/
def Obligations.FirstFaultIsKept : Prop :=
  ∀ (ops : List HostOp) (s : State) (c : Cause), s.fault = some c → .reset ∉ ops → .construct ∉ ops →
    ∃ t, runTrace ops s = .next t ∧ t.fault = some c

/-- The invariant holds at reset (spec/10_state.md R39, R41; the form of memory, notes/assumptions/9.md). -/
def Obligations.ResetMeetsInvariant : Prop := State.reset.Inv

/-- Every step keeps the invariant, from every state that has it (spec/10_state.md R41; the form of memory,
notes/assumptions/9.md). -/
def Obligations.StepKeepsInvariant : Prop :=
  ∀ s t : State, s.Inv → step s = .next t → t.Inv

/-- Every trace of operations keeps the invariant, from every state that has it; so it holds in every state reachable
from construct (spec/10_state.md R41; the form of memory, notes/assumptions/9.md). -/
def Obligations.TraceKeepsInvariant : Prop :=
  ∀ (ops : List HostOp) (s t : State), s.Inv → runTrace ops s = .next t → t.Inv
end

