-- ==== Sys2Proof/Laws/Display.lean ====
section
/-! SUPPORT. What drawing does to each pixel and to the collision flag (spec/44_display.md R151): one toggle, one
sprite row, a whole sprite. -/

namespace Sys2Proof.Machine

/-- A pixel of a display, as `State.pixel` reads it. -/
def pixelOf (d : Vector (BitVec 64) 32) (px py : Nat) : Bool := (d[py]?.getD 0).getLsbD px

theorem State.pixel_eq (s : State) (px py : Nat) : s.pixel px py = pixelOf s.disp px py := rfl

/-- Two displays with the same pixels are the same. -/
theorem disp_eq_of_pixelOf {d e : Vector (BitVec 64) 32}
    (h : ∀ px py, px < 64 → py < 32 → pixelOf d px py = pixelOf e px py) : d = e := by
  ext py hpy px hpx
  have := h px py hpx hpy
  simpa [pixelOf, hpy, BitVec.getLsbD_eq_getElem hpx] using this

/-- A toggle changes one pixel and reports whether it was set. -/
theorem pixelOf_togglePixel (d : Canvas) {px0 py0 : Nat} (hx : px0 < 64) (hy : py0 < 32) (px py : Nat) :
    pixelOf (togglePixel d px0 py0).1 px py = (pixelOf d.1 px py ^^ decide (px = px0 ∧ py = py0)) := by
  unfold togglePixel pixelOf
  simp only [Vector.getElem?_setIfInBounds]
  by_cases h : py0 = py
  · subst h
    rw [if_pos rfl, if_pos hy]
    simp only [Option.getD_some, BitVec.getLsbD_xor, BitVec.getLsbD_twoPow, hx, decide_true, Bool.true_and, and_true]
    congr 1
    exact decide_eq_decide.2 eq_comm
  · rw [if_neg h]
    have : ¬ (px = px0 ∧ py = py0) := fun e => h e.2.symm
    simp [this]

theorem togglePixel_hit (d : Canvas) (px0 py0 : Nat) : (togglePixel d px0 py0).2 = (d.2 || pixelOf d.1 px0 py0) := rfl

theorem pixelCol_lt (vx : Byte) (col : Nat) : pixelCol vx col < 64 := Nat.mod_lt _ (by decide)

theorem pixelRow_lt (vy : Byte) (row : Nat) : pixelRow vy row < 32 := Nat.mod_lt _ (by decide)

/-- Whether columns `col`, .., `col + left - 1` of a sprite row cover column `px`. -/
def rowCovers (vx : Byte) (b : Byte) (col left px : Nat) : Prop :=
  ∃ c, col ≤ c ∧ c < col + left ∧ spriteBit b c = true ∧ px = pixelCol vx c

theorem rowCovers_zero (vx b : Byte) (col px : Nat) : ¬ rowCovers vx b col 0 px := by
  rintro ⟨c, h1, h2, -⟩
  omega

theorem rowCovers_succ (vx b : Byte) (col left px : Nat) :
    rowCovers vx b col (left + 1) px ↔
      (spriteBit b col = true ∧ px = pixelCol vx col) ∨ rowCovers vx b (col + 1) left px := by
  constructor
  · rintro ⟨c, h1, h2, h3, h4⟩
    by_cases e : c = col
    · subst e; exact .inl ⟨h3, h4⟩
    · exact .inr ⟨c, by omega, by omega, h3, h4⟩
  · rintro (⟨h3, h4⟩ | ⟨c, h1, h2, h3, h4⟩)
    · exact ⟨col, le_refl _, by omega, h3, h4⟩
    · exact ⟨c, by omega, by omega, h3, h4⟩

/-- Within one sprite row no column is covered twice: the row is 8 columns of 64 (R151(d)). -/
theorem not_rowCovers_pixelCol (vx b : Byte) (col left : Nat) (h : left ≤ 63) :
    ¬ rowCovers vx b (col + 1) left (pixelCol vx col) := by
  rintro ⟨c, h1, h2, -, h4⟩
  simp only [pixelCol, Config.dispW] at h4
  omega

open Classical in
/-- One sprite row toggles exactly the pixels it covers. -/
theorem pixelOf_drawBits (vx b : Byte) {py0 : Nat} (hy : py0 < 32) (col left : Nat) (h : left ≤ 64) (d : Canvas)
    (px py : Nat) :
    pixelOf (drawBits vx py0 b col left d).1 px py =
      (pixelOf d.1 px py ^^ decide (py = py0 ∧ rowCovers vx b col left px)) := by
  induction left generalizing col d with
  | zero => simp [drawBits, rowCovers_zero]
  | succ left ih =>
    rw [drawBits, ih (col + 1) (by omega)]
    have hn := not_rowCovers_pixelCol vx b col left (by omega)
    by_cases hb : spriteBit b col = true
    · rw [if_pos hb, pixelOf_togglePixel d (pixelCol_lt vx col) hy, rowCovers_succ, Bool.xor_assoc]
      congr 1
      by_cases e : px = pixelCol vx col
      · subst e; simp [hb, hn]
      · simp [e]
    · rw [if_neg hb, rowCovers_succ]
      simp [hb]

open Classical in
/-- One sprite row reports a collision where a pixel it covers was set. -/
theorem drawBits_hit (vx b : Byte) {py0 : Nat} (hy : py0 < 32) (col left : Nat) (h : left ≤ 64) (d : Canvas) :
    (drawBits vx py0 b col left d).2 = true ↔
      d.2 = true ∨ ∃ px, rowCovers vx b col left px ∧ pixelOf d.1 px py0 = true := by
  induction left generalizing col d with
  | zero => simp [drawBits, rowCovers_zero]
  | succ left ih =>
    rw [drawBits, ih (col + 1) (by omega)]
    have hn := not_rowCovers_pixelCol vx b col left (by omega)
    by_cases hb : spriteBit b col = true
    · rw [if_pos hb, togglePixel_hit]
      simp only [rowCovers_succ, hb, true_and, Bool.or_eq_true, pixelOf_togglePixel d (pixelCol_lt vx col) hy, and_true]
      constructor
      · rintro ((h1 | h1) | ⟨px, h1, h2⟩)
        · exact .inl h1
        · exact .inr ⟨_, .inl rfl, h1⟩
        · have e : px ≠ pixelCol vx col := fun e => hn (e ▸ h1)
          exact .inr ⟨px, .inr h1, by simpa [e] using h2⟩
      · rintro (h1 | ⟨px, h1 | h1, h2⟩)
        · exact .inl (.inl h1)
        · exact .inl (.inr (h1 ▸ h2))
        · have e : px ≠ pixelCol vx col := fun e => hn (e ▸ h1)
          exact .inr ⟨px, h1, by simpa [e] using h2⟩
    · rw [if_neg hb]
      simp [rowCovers_succ, hb]

/-- Whether the sprite rows of `bs`, the first of them row `row`, cover a pixel. -/
def rowsCover (vx vy : Byte) (row : Nat) (bs : List Byte) (px py : Nat) : Prop :=
  ∃ k b, bs[k]? = some b ∧ py = pixelRow vy (row + k) ∧ rowCovers vx b 0 8 px

theorem rowsCover_nil (vx vy : Byte) (row px py : Nat) : ¬ rowsCover vx vy row [] px py := by
  rintro ⟨k, b, h, -⟩
  simp at h

theorem rowsCover_cons (vx vy : Byte) (row : Nat) (b : Byte) (bs : List Byte) (px py : Nat) :
    rowsCover vx vy row (b :: bs) px py ↔
      (py = pixelRow vy row ∧ rowCovers vx b 0 8 px) ∨ rowsCover vx vy (row + 1) bs px py := by
  constructor
  · rintro ⟨k, c, h1, h2, h3⟩
    cases k with
    | zero => simp at h1; subst h1; exact .inl ⟨h2, h3⟩
    | succ k => exact .inr ⟨k, c, by simpa using h1, by rw [h2]; congr 1; omega, h3⟩
  · rintro (⟨h2, h3⟩ | ⟨k, c, h1, h2, h3⟩)
    · exact ⟨0, b, rfl, h2, h3⟩
    · exact ⟨k + 1, c, by simpa using h1, by rw [h2]; congr 1; omega, h3⟩

/-- No two rows of a sprite of at most 32 rows share a display row (R151(d)). -/
theorem not_rowsCover_pixelRow (vx vy : Byte) (row : Nat) (bs : List Byte) (px : Nat) (h : bs.length ≤ 31) :
    ¬ rowsCover vx vy (row + 1) bs px (pixelRow vy row) := by
  rintro ⟨k, b, h1, h2, -⟩
  have hk := (List.getElem?_eq_some_iff.1 h1).1
  simp only [pixelRow, Config.dispH] at h2
  omega

open Classical in
/-- A sprite toggles exactly the pixels it covers. -/
theorem pixelOf_drawRows (vx vy : Byte) (row : Nat) (bs : List Byte) (h : bs.length ≤ 32) (d : Canvas) (px py : Nat) :
    pixelOf (drawRows vx vy row bs d).1 px py = (pixelOf d.1 px py ^^ decide (rowsCover vx vy row bs px py)) := by
  induction bs generalizing row d with
  | nil => simp [drawRows, rowsCover_nil]
  | cons b bs ih =>
    simp only [List.length_cons] at h
    rw [drawRows, ih (row + 1) (by omega), pixelOf_drawBits vx b (pixelRow_lt vy row) 0 8 (by omega), rowsCover_cons,
      Bool.xor_assoc]
    congr 1
    have hn := not_rowsCover_pixelRow vx vy row bs px (by omega)
    by_cases e : py = pixelRow vy row
    · subst e; simp [hn]
    · simp [e]

open Classical in
/-- A sprite reports a collision where a pixel it covers was set before. -/
theorem drawRows_hit (vx vy : Byte) (row : Nat) (bs : List Byte) (h : bs.length ≤ 32) (d : Canvas) :
    (drawRows vx vy row bs d).2 = true ↔
      d.2 = true ∨ ∃ px py, rowsCover vx vy row bs px py ∧ pixelOf d.1 px py = true := by
  induction bs generalizing row d with
  | nil => simp [drawRows, rowsCover_nil]
  | cons b bs ih =>
    simp only [List.length_cons] at h
    rw [drawRows, ih (row + 1) (by omega), drawBits_hit vx b (pixelRow_lt vy row) 0 8 (by omega)]
    simp only [rowsCover_cons, pixelOf_drawBits vx b (pixelRow_lt vy row) 0 8 (by omega)]
    have hn (px) := not_rowsCover_pixelRow vx vy row bs px (by omega)
    constructor
    · rintro ((h1 | ⟨px, h1, h2⟩) | ⟨px, py, h1, h2⟩)
      · exact .inl h1
      · exact .inr ⟨px, _, .inl ⟨rfl, h1⟩, h2⟩
      · have e : py ≠ pixelRow vy row := fun e => hn px (e ▸ h1)
        exact .inr ⟨px, py, .inr h1, by simpa [e] using h2⟩
    · rintro (h1 | ⟨px, py, ⟨e, h1⟩ | h1, h2⟩)
      · exact .inl (.inl h1)
      · exact .inl (.inr ⟨px, h1, e ▸ h2⟩)
      · have e : py ≠ pixelRow vy row := fun e => hn px (e ▸ h1)
        exact .inr ⟨px, py, h1, by simpa [e] using h2⟩

end Sys2Proof.Machine
end

