-- ==== Sys2Proof/Laws/Memory.lean ====
section
/-! SUPPORT. The laws of memory: every write keeps the canonical form, a read after a write gives the value written
at that address and what was there before at every other, and equal reads mean equal lists. -/

namespace Sys2Proof.Machine

theorem Memory.wfFrom_nil (lo : Nat) : Memory.wfFrom lo [] = true := rfl

/-- The canonical form, cell by cell. -/
theorem Memory.wfFrom_cons {lo a : Nat} {b : Byte} {m : List Host.Cell} :
    Memory.wfFrom lo ((a, b) :: m) = true ↔
      lo ≤ a ∧ a ≤ 0xFFF ∧ b ≠ resetByte a ∧ Memory.wfFrom (a + 1) m = true := by
  simp only [Memory.wfFrom, Bool.and_eq_true, decide_eq_true_eq, bne_iff_ne, and_assoc]

/-- A canonical list from some address on is canonical from any lower one. -/
theorem Memory.wfFrom_mono {lo lo' : Nat} {m : List Host.Cell} (h : lo' ≤ lo) (hm : Memory.wfFrom lo m = true) :
    Memory.wfFrom lo' m = true := by
  cases m with
  | nil => rfl
  | cons c m =>
    obtain ⟨a, b⟩ := c
    rw [Memory.wfFrom_cons] at hm ⊢
    exact ⟨by omega, hm.2⟩

/-- A cell put before a canonical list keeps it canonical. -/
theorem Memory.wfFrom_consCell {lo a : Nat} {b : Byte} {m : List Host.Cell} (hlo : lo ≤ a) (ha : a ≤ 0xFFF)
    (hm : Memory.wfFrom (a + 1) m = true) : Memory.wfFrom lo (Memory.consCell a b m) = true := by
  unfold Memory.consCell
  split
  · exact Memory.wfFrom_mono (by omega) hm
  · exact Memory.wfFrom_cons.2 ⟨hlo, ha, by assumption, hm⟩

theorem Memory.wfFrom_write {lo a : Nat} {b : Byte} {m : List Host.Cell} (hlo : lo ≤ a) (ha : a ≤ 0xFFF)
    (hm : Memory.wfFrom lo m = true) : Memory.wfFrom lo (Memory.write m a b) = true := by
  induction m generalizing lo with
  | nil => exact Memory.wfFrom_consCell hlo ha rfl
  | cons c m ih =>
    obtain ⟨c, u⟩ := c
    obtain ⟨h1, h2, h3, h4⟩ := Memory.wfFrom_cons.1 hm
    rw [Memory.write]
    split
    · exact Memory.wfFrom_consCell hlo ha (Memory.wfFrom_cons.2 ⟨by omega, h2, h3, h4⟩)
    · split
      · subst_vars
        exact Memory.wfFrom_consCell hlo ha h4
      · exact Memory.wfFrom_cons.2 ⟨h1, h2, h3, ih (by omega) h4⟩

/-- Writing a byte at a valid address keeps memory canonical. -/
theorem Memory.wf_write {m : List Host.Cell} {a : Nat} {b : Byte} (ha : a ≤ 0xFFF) (hm : Memory.wf m = true) :
    Memory.wf (Memory.write m a b) = true :=
  Memory.wfFrom_write (Nat.zero_le a) ha hm

/-- Writing bytes at valid addresses keeps memory canonical. -/
theorem Memory.wf_writeList {m : List Host.Cell} {a : Nat} {bs : List Byte} (h : bs = [] ∨ a + bs.length ≤ 4096)
    (hm : Memory.wf m = true) : Memory.wf (Memory.writeList m a bs) = true := by
  induction bs generalizing m a with
  | nil => exact hm
  | cons b bs ih =>
    simp only [List.length_cons, reduceCtorEq, false_or] at h
    exact ih (by right; omega) (Memory.wf_write (by omega) hm)

theorem Memory.find?_of_lt {lo a : Nat} {m : List Host.Cell} (h : a < lo) (hm : Memory.wfFrom lo m = true) :
    Memory.find? m a = none := by
  induction m generalizing lo with
  | nil => rfl
  | cons c m ih =>
    obtain ⟨c, u⟩ := c
    obtain ⟨h1, -, -, h4⟩ := Memory.wfFrom_cons.1 hm
    rw [Memory.find?, if_neg (by omega)]
    exact ih (by omega) h4

theorem Memory.read_cons (a c : Nat) (u : Byte) (m : List Host.Cell) :
    Memory.read ((c, u) :: m) a = if a = c then u else Memory.read m a := by
  unfold Memory.read
  rw [Memory.find?]
  split <;> rfl

theorem Memory.read_of_lt {lo a : Nat} {m : List Host.Cell} (h : a < lo) (hm : Memory.wfFrom lo m = true) :
    Memory.read m a = resetByte a := by
  simp [Memory.read, Memory.find?_of_lt h hm]

theorem Memory.read_consCell {a c : Nat} {u : Byte} {m : List Host.Cell} (hm : Memory.wfFrom (c + 1) m = true) :
    Memory.read (Memory.consCell c u m) a = if a = c then u else Memory.read m a := by
  unfold Memory.consCell
  split
  · rename_i h
    by_cases e : a = c
    · subst e; rw [if_pos rfl, h, Memory.read_of_lt (by omega) hm]
    · rw [if_neg e]
  · exact Memory.read_cons a c u m

theorem Memory.read_write_from {lo a c : Nat} {u : Byte} {m : List Host.Cell} (hlo : lo ≤ c)
    (hm : Memory.wfFrom lo m = true) :
    Memory.read (Memory.write m c u) a = if a = c then u else Memory.read m a := by
  induction m generalizing lo with
  | nil => exact Memory.read_consCell rfl
  | cons d m ih =>
    obtain ⟨d, w⟩ := d
    obtain ⟨h1, h2, h3, h4⟩ := Memory.wfFrom_cons.1 hm
    rw [Memory.write]
    split
    · exact Memory.read_consCell (Memory.wfFrom_cons.2 ⟨by omega, h2, h3, h4⟩)
    · split
      · subst_vars
        rw [Memory.read_consCell h4, Memory.read_cons]
        split <;> rfl
      · rw [Memory.read_cons, ih (by omega) h4, Memory.read_cons]
        by_cases e : a = d
        · subst e; rw [if_pos rfl, if_neg (by omega), if_pos rfl]
        · simp [e]

/-- A read after a write: the byte written at its own address, the byte from before at every other (R60). -/
theorem Memory.read_write {m : List Host.Cell} (hm : Memory.wf m = true) (a c : Nat) (u : Byte) :
    Memory.read (Memory.write m c u) a = if a = c then u else Memory.read m a :=
  Memory.read_write_from (Nat.zero_le c) hm

/-- A read after a run of writes (R51): byte `k` of the run at address `a + k`, every other byte from before. -/
theorem Memory.read_writeList {m : List Host.Cell} {c : Nat} {bs : List Byte} (h : bs = [] ∨ c + bs.length ≤ 4096)
    (hm : Memory.wf m = true) (a : Nat) :
    Memory.read (Memory.writeList m c bs) a =
      if c ≤ a ∧ a < c + bs.length then bs[a - c]?.getD 0 else Memory.read m a := by
  induction bs generalizing m c with
  | nil => simp [Memory.writeList]
  | cons b bs ih =>
    simp only [List.length_cons, reduceCtorEq, false_or] at h
    rw [Memory.writeList, ih (by right; omega) (Memory.wf_write (by omega) hm), Memory.read_write hm]
    simp only [List.length_cons]
    by_cases e : a = c
    · subst e; simp
    · by_cases e2 : c + 1 ≤ a ∧ a < c + 1 + bs.length
      · rw [if_pos e2, if_pos (by omega), show a - c = (a - (c + 1)) + 1 by omega, List.getElem?_cons_succ]
      · rw [if_neg e2, if_neg e, if_neg (by omega)]

@[simp] theorem Memory.readList_length (m : List Host.Cell) (a n : Nat) : (Memory.readList m a n).length = n := by
  induction n generalizing a with
  | zero => rfl
  | succ n ih => simp [Memory.readList, ih]

/-- Entry `k` of a run of reads is the byte at `a + k`. -/
theorem Memory.readList_getElem? (m : List Host.Cell) (a n k : Nat) :
    (Memory.readList m a n)[k]? = if k < n then some (Memory.read m (a + k)) else none := by
  induction n generalizing a k with
  | zero => simp [Memory.readList]
  | succ n ih =>
    cases k with
    | zero => simp [Memory.readList]
    | succ k =>
      rw [Memory.readList, List.getElem?_cons_succ, ih, show a + 1 + k = a + (k + 1) by omega]
      simp

/-- Which ranges of accesses are in bounds (R53). -/
theorem inRange_iff (a n : Nat) : inRange a n = true ↔ n = 0 ∨ a + n ≤ 4096 := by
  simp only [inRange, Bool.or_eq_true, beq_iff_eq, decide_eq_true_eq]

/-- Everything a run of reads can answer (R53). -/
theorem Memory.load?_cases (m : List Host.Cell) (a n : Nat) :
    (Memory.load? m a n = some (Memory.readList m a n) ∧ (n = 0 ∨ a + n ≤ 4096)) ∨
      (Memory.load? m a n = none ∧ 0 < n ∧ 4096 < a + n) := by
  unfold Memory.load?
  by_cases h : inRange a n = true
  · exact .inl ⟨if_pos h, (inRange_iff a n).1 h⟩
  · have := mt (inRange_iff a n).2 h
    exact .inr ⟨if_neg h, by omega, by omega⟩

/-- Everything a run of writes can answer (R53). -/
theorem Memory.store?_cases (m : List Host.Cell) (a : Nat) (bs : List Byte) :
    (Memory.store? m a bs = some (Memory.writeList m a bs) ∧ (bs = [] ∨ a + bs.length ≤ 4096)) ∨
      (Memory.store? m a bs = none ∧ 0 < bs.length ∧ 4096 < a + bs.length) := by
  unfold Memory.store?
  by_cases h : inRange a bs.length = true
  · have := (inRange_iff a bs.length).1 h
    simp only [List.length_eq_zero_iff] at this
    exact .inl ⟨if_pos h, this⟩
  · have := mt (inRange_iff a bs.length).2 h
    exact .inr ⟨if_neg h, by omega, by omega⟩

/-- A run of writes that answers keeps memory canonical. -/
theorem Memory.wf_store? {m m' : List Host.Cell} {a : Nat} {bs : List Byte} (h : Memory.store? m a bs = some m')
    (hm : Memory.wf m = true) : Memory.wf m' = true := by
  rcases Memory.store?_cases m a bs with ⟨e, hr⟩ | ⟨e, -⟩
  · rw [e] at h
    cases h
    exact Memory.wf_writeList hr hm
  · rw [e] at h
    cases h

/-- Reset memory is canonical, and reads as the reset contents. -/
theorem Memory.wf_reset : Memory.wf State.reset.mem = true := rfl

@[simp] theorem Memory.read_reset (a : Nat) : Memory.read State.reset.mem a = resetByte a := rfl

end Sys2Proof.Machine
end

