-- ==== Sys2Proof/Laws/State.lean ====
section
/-! SUPPORT. One lemma per field for each named update of the state, so that no proof unfolds a record update. -/

namespace Sys2Proof.Machine

@[simp] theorem State.setV_v (s : State) (x : Reg) (b : Byte) : (s.setV x b).v = s.v.set x.toNat b x.isLt := rfl
@[simp] theorem State.setV_i (s : State) (x : Reg) (b : Byte) : (s.setV x b).i = s.i := rfl
@[simp] theorem State.setV_pc (s : State) (x : Reg) (b : Byte) : (s.setV x b).pc = s.pc := rfl
@[simp] theorem State.setV_stack (s : State) (x : Reg) (b : Byte) : (s.setV x b).stack = s.stack := rfl
@[simp] theorem State.setV_sp (s : State) (x : Reg) (b : Byte) : (s.setV x b).sp = s.sp := rfl
@[simp] theorem State.setV_dt (s : State) (x : Reg) (b : Byte) : (s.setV x b).dt = s.dt := rfl
@[simp] theorem State.setV_st (s : State) (x : Reg) (b : Byte) : (s.setV x b).st = s.st := rfl
@[simp] theorem State.setV_key (s : State) (x : Reg) (b : Byte) : (s.setV x b).key = s.key := rfl
@[simp] theorem State.setV_disp (s : State) (x : Reg) (b : Byte) : (s.setV x b).disp = s.disp := rfl
@[simp] theorem State.setV_mem (s : State) (x : Reg) (b : Byte) : (s.setV x b).mem = s.mem := rfl
@[simp] theorem State.setV_fault (s : State) (x : Reg) (b : Byte) : (s.setV x b).fault = s.fault := rfl
@[simp] theorem State.setV_draws (s : State) (x : Reg) (b : Byte) : (s.setV x b).draws = s.draws := rfl

@[simp] theorem State.advance_v (s : State) : (s.advance).v = s.v := rfl
@[simp] theorem State.advance_i (s : State) : (s.advance).i = s.i := rfl
@[simp] theorem State.advance_pc (s : State) : (s.advance).pc = s.pc + 2 := rfl
@[simp] theorem State.advance_stack (s : State) : (s.advance).stack = s.stack := rfl
@[simp] theorem State.advance_sp (s : State) : (s.advance).sp = s.sp := rfl
@[simp] theorem State.advance_dt (s : State) : (s.advance).dt = s.dt := rfl
@[simp] theorem State.advance_st (s : State) : (s.advance).st = s.st := rfl
@[simp] theorem State.advance_key (s : State) : (s.advance).key = s.key := rfl
@[simp] theorem State.advance_disp (s : State) : (s.advance).disp = s.disp := rfl
@[simp] theorem State.advance_mem (s : State) : (s.advance).mem = s.mem := rfl
@[simp] theorem State.advance_fault (s : State) : (s.advance).fault = s.fault := rfl
@[simp] theorem State.advance_draws (s : State) : (s.advance).draws = s.draws := rfl

@[simp] theorem State.raise_v (s : State) (c : Cause) : (s.raise c).v = s.v := rfl
@[simp] theorem State.raise_i (s : State) (c : Cause) : (s.raise c).i = s.i := rfl
@[simp] theorem State.raise_pc (s : State) (c : Cause) : (s.raise c).pc = s.pc := rfl
@[simp] theorem State.raise_stack (s : State) (c : Cause) : (s.raise c).stack = s.stack := rfl
@[simp] theorem State.raise_sp (s : State) (c : Cause) : (s.raise c).sp = s.sp := rfl
@[simp] theorem State.raise_dt (s : State) (c : Cause) : (s.raise c).dt = s.dt := rfl
@[simp] theorem State.raise_st (s : State) (c : Cause) : (s.raise c).st = s.st := rfl
@[simp] theorem State.raise_key (s : State) (c : Cause) : (s.raise c).key = s.key := rfl
@[simp] theorem State.raise_disp (s : State) (c : Cause) : (s.raise c).disp = s.disp := rfl
@[simp] theorem State.raise_mem (s : State) (c : Cause) : (s.raise c).mem = s.mem := rfl
@[simp] theorem State.raise_fault (s : State) (c : Cause) : (s.raise c).fault = s.fault.or (some c) := rfl
@[simp] theorem State.raise_draws (s : State) (c : Cause) : (s.raise c).draws = s.draws := rfl

@[simp] theorem State.tickTimers_v (s : State) : (tickTimers s).v = s.v := rfl
@[simp] theorem State.tickTimers_i (s : State) : (tickTimers s).i = s.i := rfl
@[simp] theorem State.tickTimers_pc (s : State) : (tickTimers s).pc = s.pc := rfl
@[simp] theorem State.tickTimers_stack (s : State) : (tickTimers s).stack = s.stack := rfl
@[simp] theorem State.tickTimers_sp (s : State) : (tickTimers s).sp = s.sp := rfl
@[simp] theorem State.tickTimers_dt (s : State) : (tickTimers s).dt = tickTimer s.dt := rfl
@[simp] theorem State.tickTimers_st (s : State) : (tickTimers s).st = tickTimer s.st := rfl
@[simp] theorem State.tickTimers_key (s : State) : (tickTimers s).key = s.key := rfl
@[simp] theorem State.tickTimers_disp (s : State) : (tickTimers s).disp = s.disp := rfl
@[simp] theorem State.tickTimers_mem (s : State) : (tickTimers s).mem = s.mem := rfl
@[simp] theorem State.tickTimers_fault (s : State) : (tickTimers s).fault = s.fault := rfl
@[simp] theorem State.tickTimers_draws (s : State) : (tickTimers s).draws = s.draws := rfl

@[simp] theorem State.skipIf_v (s : State) (c : Bool) : (s.skipIf c).v = s.v := by cases c <;> rfl
@[simp] theorem State.skipIf_i (s : State) (c : Bool) : (s.skipIf c).i = s.i := by cases c <;> rfl
@[simp] theorem State.skipIf_pc (s : State) (c : Bool) : (s.skipIf c).pc = if c then s.pc + 2 else s.pc := by
  cases c <;> rfl
@[simp] theorem State.skipIf_stack (s : State) (c : Bool) : (s.skipIf c).stack = s.stack := by cases c <;> rfl
@[simp] theorem State.skipIf_sp (s : State) (c : Bool) : (s.skipIf c).sp = s.sp := by cases c <;> rfl
@[simp] theorem State.skipIf_dt (s : State) (c : Bool) : (s.skipIf c).dt = s.dt := by cases c <;> rfl
@[simp] theorem State.skipIf_st (s : State) (c : Bool) : (s.skipIf c).st = s.st := by cases c <;> rfl
@[simp] theorem State.skipIf_key (s : State) (c : Bool) : (s.skipIf c).key = s.key := by cases c <;> rfl
@[simp] theorem State.skipIf_disp (s : State) (c : Bool) : (s.skipIf c).disp = s.disp := by cases c <;> rfl
@[simp] theorem State.skipIf_mem (s : State) (c : Bool) : (s.skipIf c).mem = s.mem := by cases c <;> rfl
@[simp] theorem State.skipIf_fault (s : State) (c : Bool) : (s.skipIf c).fault = s.fault := by cases c <;> rfl
@[simp] theorem State.skipIf_draws (s : State) (c : Bool) : (s.skipIf c).draws = s.draws := by cases c <;> rfl

@[simp] theorem State.resetOp_v (s : State) : (resetOp s).v = Vector.replicate 16 0 := rfl
@[simp] theorem State.resetOp_i (s : State) : (resetOp s).i = 0 := rfl
@[simp] theorem State.resetOp_pc (s : State) : (resetOp s).pc = 0x200 := rfl
@[simp] theorem State.resetOp_stack (s : State) : (resetOp s).stack = Vector.replicate 16 0 := rfl
@[simp] theorem State.resetOp_sp (s : State) : (resetOp s).sp = 0 := rfl
@[simp] theorem State.resetOp_dt (s : State) : (resetOp s).dt = 0 := rfl
@[simp] theorem State.resetOp_st (s : State) : (resetOp s).st = 0 := rfl
@[simp] theorem State.resetOp_key (s : State) : (resetOp s).key = Vector.replicate 16 false := rfl
@[simp] theorem State.resetOp_disp (s : State) : (resetOp s).disp = Vector.replicate 32 0 := rfl
@[simp] theorem State.resetOp_mem (s : State) : (resetOp s).mem = [] := rfl
@[simp] theorem State.resetOp_fault (s : State) : (resetOp s).fault = none := rfl
@[simp] theorem State.resetOp_draws (s : State) : (resetOp s).draws = s.draws := rfl

/-- Two states with equal fields are equal. -/
theorem State.eq_of_fields {s t : State} (hv : s.v = t.v) (hi : s.i = t.i) (hpc : s.pc = t.pc) (hstack : s.stack = t.stack)
    (hsp : s.sp = t.sp) (hdt : s.dt = t.dt) (hst : s.st = t.st) (hkey : s.key = t.key) (hdisp : s.disp = t.disp)
    (hmem : s.mem = t.mem) (hfault : s.fault = t.fault) (hdraws : s.draws = t.draws) : s = t := by
  cases s; cases t; simp_all

end Sys2Proof.Machine
end

