-- ==== Sys2Proof/Laws/Registers.lean ====
section
/-! SUPPORT. Reading and writing the general registers: what a read gives after a write, and which updates leave
every register alone. -/

namespace Sys2Proof.Machine

/-- A register reads the same in two states with the same register file. -/
theorem State.getV_congr {s t : State} (h : s.v = t.v) (r : Reg) : s.getV r = t.getV r := by
  simp [State.getV, h]

@[simp] theorem State.getV_setV (s : State) (x r : Reg) (b : Byte) :
    (s.setV x b).getV r = if r = x then b else s.getV r := by
  unfold State.getV State.setV
  simp only [Vector.getElem_set]
  by_cases h : r = x
  · simp [h]
  · have : x.toNat ≠ r.toNat := fun e => h (BitVec.eq_of_toNat_eq e.symm)
    simp [h, this]

@[simp] theorem State.getV_advance (s : State) (r : Reg) : s.advance.getV r = s.getV r := rfl

@[simp] theorem State.getV_raise (s : State) (c : Cause) (r : Reg) : (s.raise c).getV r = s.getV r := rfl

@[simp] theorem State.getV_skipIf (s : State) (c : Bool) (r : Reg) : (s.skipIf c).getV r = s.getV r := by
  cases c <;> rfl

@[simp] theorem State.getV_reset (r : Reg) : State.reset.getV r = 0 := by
  simp [State.getV, State.reset]

/-- A register file is the same if every register reads the same. -/
theorem State.v_eq_of_getV {s t : State} (h : ∀ r : Reg, s.getV r = t.getV r) : s.v = t.v := by
  ext k hk
  have e := h (BitVec.ofNat 4 k)
  have hm : k % 16 = k := Nat.mod_eq_of_lt hk
  have e' : s.v[k] = t.v[k] := by simpa [State.getV, hm] using e
  rw [e']

/-- V0..Vx as a list: entry `k` is register `k` (R144). -/
theorem State.regsTo_getElem? (s : State) (x : Reg) (k : Nat) :
    (s.regsTo x)[k]? = if k ≤ x.toNat then s.v[k]? else none := by
  simp only [State.regsTo, List.getElem?_take]
  by_cases h : k ≤ x.toNat
  · rw [if_pos (by omega), if_pos h]; simp
  · rw [if_neg (by omega), if_neg h]

@[simp] theorem State.regsTo_length (s : State) (x : Reg) : (s.regsTo x).length = x.toNat + 1 := by
  have := x.isLt
  simp [State.regsTo]
  omega

/-- What a run of register writes leaves in register `j` (R145). -/
theorem writeRegs_getElem? (v : Vector Byte 16) (k j : Nat) (bs : List Byte) :
    (writeRegs v k bs)[j]? = if k ≤ j ∧ j < k + bs.length ∧ j < 16 then bs[j - k]? else v[j]? := by
  induction bs generalizing v k with
  | nil => simp [writeRegs]; omega
  | cons b bs ih =>
    rw [writeRegs, ih]
    simp only [List.length_cons]
    by_cases h1 : k + 1 ≤ j ∧ j < k + 1 + bs.length ∧ j < 16
    · rw [if_pos h1, if_pos (by omega)]
      obtain ⟨d, rfl⟩ : ∃ d, j = k + 1 + d := ⟨j - (k + 1), by omega⟩
      rw [show k + 1 + d - k = d + 1 by omega, show k + 1 + d - (k + 1) = d by omega]
      simp
    · rw [if_neg h1, Vector.getElem?_setIfInBounds]
      by_cases h2 : k = j
      · subst h2
        by_cases h3 : k < 16
        · simp [h3]
        · simp [h3]
      · rw [if_neg h2, if_neg (by omega)]

end Sys2Proof.Machine
end

