-- ==== Sys2Proof/Laws/Ops.lean ====
section
/-! SUPPORT. One lemma for each shared operation that says everything it can do: the stack, the fetch, the key
operands, taking an error condition, and a cycle. -/

namespace Sys2Proof.Machine

/-- Everything a push can answer (R102). -/
theorem State.push?_cases (s : State) (a : Word) :
    (s.sp.val = 16 ∧ s.push? a = none) ∨
      (s.sp.val < 16 ∧ ∃ t, s.push? a = some t ∧ t.stack[s.sp.val]? = some a ∧
        (∀ j, j ≠ s.sp.val → t.stack[j]? = s.stack[j]?) ∧ t.sp.val = s.sp.val + 1 ∧
        t = { s with stack := t.stack, sp := t.sp }) := by
  unfold State.push?
  by_cases h : s.sp.val < 16
  · refine .inr ⟨h, _, dif_pos h, ?_, ?_, rfl, rfl⟩
    · simp [h]
    · intro j hj
      simp [Ne.symm hj]
  · exact .inl ⟨by omega, dif_neg h⟩

/-- Everything a pop can answer (R100). -/
theorem State.pop?_cases (s : State) :
    (s.sp.val = 0 ∧ s.pop? = none) ∨
      (0 < s.sp.val ∧ ∃ a t, s.pop? = some (a, t) ∧ s.stack[s.sp.val - 1]? = some a ∧ t.sp.val = s.sp.val - 1 ∧
        t = { s with sp := t.sp }) := by
  unfold State.pop?
  by_cases h : 0 < s.sp.val
  · refine .inr ⟨h, _, _, dif_pos h, ?_, rfl, rfl⟩
    rw [Vector.getElem?_eq_getElem]
  · exact .inl ⟨by omega, dif_neg h⟩

/-- Everything a fetch can answer (R91). -/
theorem fetch?_cases (s : State) :
    (s.pc.toNat ≤ 0xFFE ∧
        fetch? s = some (Memory.read s.mem s.pc.toNat ++ Memory.read s.mem (s.pc.toNat + 1))) ∨
      (0xFFE < s.pc.toNat ∧ fetch? s = none) := by
  unfold fetch?
  by_cases h : inRange s.pc.toNat 2 = true
  · have := (inRange_iff _ _).1 h
    exact .inl ⟨by omega, if_pos h⟩
  · have := mt (inRange_iff s.pc.toNat 2).2 h
    exact .inr ⟨by omega, if_neg h⟩

/-- Taking an error condition always answers a next state: the same state with the first cause latched (R190). -/
theorem takeFault_eq (c : Cause) (s : State) : takeFault c s = .next { s with fault := s.fault.or (some c) } := rfl

/-- Everything a key operand can be (R166). -/
theorem State.keyAt?_cases (s : State) (b : Byte) :
    (15 < b.toNat ∧ s.keyAt? b = none) ∨ (b.toNat ≤ 15 ∧ s.keyAt? b = some (s.keyDown b.toNat)) := by
  unfold State.keyAt? State.keyDown
  by_cases h : b.toNat < 16
  · exact .inr ⟨by omega, by rw [Vector.getElem?_eq_getElem h]; rfl⟩
  · exact .inl ⟨by omega, by rw [Vector.getElem?_eq_none (by omega)]⟩

/-- Everything the scan for a pressed key can answer (R162). -/
theorem State.lowestKey?_cases (s : State) :
    (s.lowestKey? = none ∧ ∀ k, k < 16 → s.keyDown k = false) ∨
      (∃ k, s.lowestKey? = some k ∧ k < 16 ∧ s.keyDown k = true ∧ ∀ j, j < k → s.keyDown j = false) := by
  unfold State.lowestKey?
  cases h : (List.range 16).find? fun k => s.keyDown k with
  | none =>
    refine .inl ⟨rfl, fun k hk => ?_⟩
    have := List.find?_eq_none.1 h k (List.mem_range.2 hk)
    simpa using this
  | some k =>
    have h' := List.find?_range_eq_some.1 h
    exact .inr ⟨k, rfl, List.mem_range.1 h'.2.1, h'.1, fun j hj => by simpa using h'.2.2 j hj⟩

/-- Everything a cycle of a core that is not faulted can do (R90). -/
theorem runCycle_cases (s : State) :
    (fetch? s = none ∧ runCycle s = takeFault .addressOutOfRange s) ∨
      (∃ w, fetch? s = some w ∧
        ((∃ e, decodeWord w = .error e ∧ runCycle s = takeFault .unimplementedOpcode s) ∨
          ∃ i, decodeWord w = .ok i ∧ runCycle s = exec i s)) := by
  unfold runCycle
  cases hf : fetch? s with
  | none => exact .inl ⟨rfl, rfl⟩
  | some w =>
    refine .inr ⟨w, rfl, ?_⟩
    cases hd : decodeWord w with
    | error e => exact .inl ⟨e, rfl, by simp [hd]⟩
    | ok i => exact .inr ⟨i, rfl, by simp [hd]⟩

end Sys2Proof.Machine
end

