-- ==== Sys2Proof/Laws/Exec.lean ====
section
/-! SUPPORT. Everything that each instruction with a check of its own, or with two ends, can do, said once: 00EE,
2nnn, Dxyn, Ex9E, ExA1, Fx0A, Fx33, Fx55, Fx65. Every other instruction is one equation, true by definition. -/

namespace Sys2Proof.Machine

/-- 00EE (R100). -/
theorem exec_ret_cases (s : State) :
    (s.sp.val = 0 ∧ exec .ret s = .next (s.raise .stackUnderflow)) ∨
      (0 < s.sp.val ∧ ∃ t, exec .ret s = .next t ∧ t.sp.val = s.sp.val - 1 ∧
        s.stack[s.sp.val - 1]? = some t.pc ∧ t = { s with sp := t.sp, pc := t.pc }) := by
  rcases s.pop?_cases with ⟨h0, h⟩ | ⟨h0, a, t, h, h1, h2, ht⟩
  · exact .inl ⟨h0, by simp only [exec, execRet, h]; rfl⟩
  · refine .inr ⟨h0, { t with pc := a }, by simp only [exec, execRet, h], h2, h1, ?_⟩
    rw [ht]

/-- 2nnn (R102). -/
theorem exec_call_cases (nnn : Addr) (s : State) :
    (s.sp.val = 16 ∧ exec (.call nnn) s = .next (s.raise .stackOverflow)) ∨
      (s.sp.val < 16 ∧ ∃ t, exec (.call nnn) s = .next t ∧ t.stack[s.sp.val]? = some (s.pc + 2) ∧
        (∀ j, j ≠ s.sp.val → t.stack[j]? = s.stack[j]?) ∧ t.sp.val = s.sp.val + 1 ∧ t.pc = addrWord nnn ∧
        t = { s with stack := t.stack, sp := t.sp, pc := t.pc }) := by
  rcases s.advance.push?_cases (s.pc + 2) with ⟨h0, h⟩ | ⟨h0, t, h, h1, h2, h3, ht⟩
  · exact .inl ⟨h0, by simp only [exec, execCall, h]; rfl⟩
  · refine .inr ⟨h0, { t with pc := addrWord nnn }, by simp only [exec, execCall, h], h1, h2, h3, rfl, ?_⟩
    rw [ht]; rfl

/-- The display and the collision flag that a sprite of `n` bytes at `I` leaves (R151). -/
def drawn (x y : Reg) (n : Nibble) (s : State) : Canvas :=
  drawRows (s.getV x) (s.getV y) 0 (Memory.readList s.mem s.base n.toNat) (s.disp, false)

/-- Dxyn (R151). -/
theorem exec_drw_cases (x y : Reg) (n : Nibble) (s : State) :
    ((n.toNat = 0 ∨ s.base + n.toNat - 1 ≤ 0xFFF) ∧
        exec (.drw x y n) s = .next (({ s.advance with disp := (drawn x y n s).1 } : State).setV 0xF
          (flagByte (drawn x y n s).2))) ∨
      ((0 < n.toNat ∧ 0xFFF < s.base + n.toNat - 1) ∧
        exec (.drw x y n) s = .next (s.raise .addressOutOfRange)) := by
  rcases Memory.load?_cases s.mem s.base n.toNat with ⟨h, h0⟩ | ⟨h, h1, h2⟩
  · exact .inl ⟨by omega, by simp only [exec, execDrw, h, drawn]⟩
  · exact .inr ⟨by omega, by simp only [exec, execDrw, h]; rfl⟩

/-- A sprite read from memory covers the pixels that the spec's own formula gives (R151). -/
theorem rowsCover_iff_spriteCovers (s : State) (x y : Reg) (n : Nibble) (px py : Nat) :
    rowsCover (s.getV x) (s.getV y) 0 (Memory.readList s.mem s.base n.toNat) px py ↔ spriteCovers s x y n px py := by
  unfold rowsCover spriteCovers rowCovers
  constructor
  · rintro ⟨k, b, h1, h2, c, -, h3, h4, h5⟩
    rw [Memory.readList_getElem?] at h1
    split at h1
    · cases h1
      exact ⟨k, c, by assumption, by omega, h4, h5, by simpa [pixelRow] using h2⟩
    · cases h1
  · rintro ⟨k, c, h1, h2, h3, h4, h5⟩
    exact ⟨k, _, by rw [Memory.readList_getElem?, if_pos h1], by simpa [pixelRow] using h5, c, by omega, by omega,
      h3, h4⟩

open Classical in
/-- Drawing toggles exactly the covered pixels (R151). -/
theorem pixelOf_drawn (x y : Reg) (n : Nibble) (s : State) (px py : Nat) :
    pixelOf (drawn x y n s).1 px py = (s.pixel px py ^^ decide (spriteCovers s x y n px py)) := by
  have := n.isLt
  rw [drawn, pixelOf_drawRows _ _ _ _ (by simp; omega)]
  simp only [rowsCover_iff_spriteCovers]
  rfl

/-- Drawing reports a collision where a covered pixel was set (R151). -/
theorem drawn_hit (x y : Reg) (n : Nibble) (s : State) :
    (drawn x y n s).2 = true ↔ ∃ px py, spriteCovers s x y n px py ∧ s.pixel px py = true := by
  have := n.isLt
  rw [drawn, drawRows_hit _ _ _ _ (by simp; omega)]
  simp only [rowsCover_iff_spriteCovers, Bool.false_eq_true, false_or, State.pixel_eq]

/-- A covered pixel is a pixel of the display. -/
theorem spriteCovers_bound {s : State} {x y : Reg} {n : Nibble} {px py : Nat} (h : spriteCovers s x y n px py) :
    px < 64 ∧ py < 32 := by
  obtain ⟨k, c, -, -, -, h4, h5⟩ := h
  exact ⟨by rw [h4]; exact Nat.mod_lt _ (by decide), by rw [h5]; exact Nat.mod_lt _ (by decide)⟩

/-- Ex9E and ExA1 (R160, R161, R166). -/
theorem exec_keySkip_cases (x : Reg) (s : State) :
    ((s.getV x).toNat ≤ 15 ∧
        exec (.skp x) s = .next (s.advance.skipIf (s.keyDown (s.getV x).toNat)) ∧
        exec (.sknp x) s = .next (s.advance.skipIf (!s.keyDown (s.getV x).toNat))) ∨
      (15 < (s.getV x).toNat ∧ exec (.skp x) s = .next (s.raise .invalidInputIndex) ∧
        exec (.sknp x) s = .next (s.raise .invalidInputIndex)) := by
  rcases s.keyAt?_cases (s.getV x) with ⟨h0, h⟩ | ⟨h0, h⟩
  · exact .inr ⟨h0, by simp only [exec, execSkp, h]; rfl, by simp only [exec, execSknp, h]; rfl⟩
  · exact .inl ⟨h0, by simp only [exec, execSkp, h], by simp only [exec, execSknp, h]⟩

/-- Fx0A (R162). -/
theorem exec_ldVxK_cases (x : Reg) (s : State) :
    ((∀ k, k < 16 → s.keyDown k = false) ∧ s.lowestKey? = none ∧ exec (.ldVxK x) s = .next s) ∨
      (∃ k, k < 16 ∧ s.keyDown k = true ∧ (∀ j, j < k → s.keyDown j = false) ∧ s.lowestKey? = some k ∧
        exec (.ldVxK x) s = .next (s.advance.setV x (BitVec.ofNat 8 k))) := by
  rcases s.lowestKey?_cases with ⟨h, h0⟩ | ⟨k, h, h1, h2, h3⟩
  · refine .inl ⟨h0, h, ?_⟩
    simp only [exec, execLdVxK, h, State.advance, BitVec.add_sub_cancel]
  · exact .inr ⟨k, h1, h2, h3, h, by simp only [exec, execLdVxK, h]⟩

/-- Fx33 (R143). -/
theorem exec_ldB_cases (x : Reg) (s : State) :
    (s.base + 2 ≤ 0xFFF ∧
        exec (.ldB x) s = .next { s.advance with mem := Memory.writeList s.mem s.base (bcdDigits (s.getV x)) }) ∨
      (0xFFF < s.base + 2 ∧ exec (.ldB x) s = .next (s.raise .addressOutOfRange)) := by
  rcases Memory.store?_cases s.mem s.base (bcdDigits (s.getV x)) with ⟨h, h0⟩ | ⟨h, h1, h2⟩
  · simp [bcdDigits] at h0
    exact .inl ⟨by omega, by simp only [exec, execLdB, h]⟩
  · simp [bcdDigits] at h2
    exact .inr ⟨by omega, by simp only [exec, execLdB, h]; rfl⟩

/-- Fx55 (R144). -/
theorem exec_storeRegs_cases (x : Reg) (s : State) :
    (s.base + x.toNat ≤ 0xFFF ∧
        exec (.storeRegs x) s = .next { s.advance with mem := Memory.writeList s.mem s.base (s.regsTo x) }) ∨
      (0xFFF < s.base + x.toNat ∧ exec (.storeRegs x) s = .next (s.raise .addressOutOfRange)) := by
  rcases Memory.store?_cases s.mem s.base (s.regsTo x) with ⟨h, h0⟩ | ⟨h, h1, h2⟩
  · rw [← List.length_eq_zero_iff, s.regsTo_length] at h0
    exact .inl ⟨by omega, by simp only [exec, execStoreRegs, h]⟩
  · rw [s.regsTo_length] at h2
    exact .inr ⟨by omega, by simp only [exec, execStoreRegs, h]; rfl⟩

/-- Fx65 (R145). -/
theorem exec_loadRegs_cases (x : Reg) (s : State) :
    (s.base + x.toNat ≤ 0xFFF ∧
        exec (.loadRegs x) s =
          .next { s.advance with v := writeRegs s.v 0 (Memory.readList s.mem s.base (x.toNat + 1)) }) ∨
      (0xFFF < s.base + x.toNat ∧ exec (.loadRegs x) s = .next (s.raise .addressOutOfRange)) := by
  rcases Memory.load?_cases s.mem s.base (x.toNat + 1) with ⟨h, h0⟩ | ⟨h, h1, h2⟩
  · exact .inl ⟨by omega, by simp only [exec, execLoadRegs, h]⟩
  · exact .inr ⟨by omega, by simp only [exec, execLoadRegs, h]; rfl⟩

/-- Every byte of memory after Fx33 has stored (R54, R143). -/
theorem read_bcdDigits {x : Reg} {s : State} (hm : Memory.wf s.mem = true) (h : s.base + 2 ≤ 0xFFF) (a : Nat) :
    Memory.read (Memory.writeList s.mem s.base (bcdDigits (s.getV x))) a = byteAfter s (.ldB x) a := by
  have hl : (bcdDigits (s.getV x)).length = 3 := rfl
  rw [Memory.read_writeList (.inr (by omega)) hm, hl]
  unfold byteAfter storeCount
  split
  · obtain e | e | e : a - s.base = 0 ∨ a - s.base = 1 ∨ a - s.base = 2 := by omega
    all_goals rw [e]; rfl
  · rfl

/-- Every byte of memory after Fx55 has stored (R54, R144). -/
theorem read_regsTo {x : Reg} {s : State} (hm : Memory.wf s.mem = true) (h : s.base + x.toNat ≤ 0xFFF) (a : Nat) :
    Memory.read (Memory.writeList s.mem s.base (s.regsTo x)) a = byteAfter s (.storeRegs x) a := by
  have hx := x.isLt
  rw [Memory.read_writeList (.inr (by rw [s.regsTo_length]; omega)) hm, s.regsTo_length]
  unfold byteAfter storeCount
  split
  · rw [State.regsTo_getElem?, if_pos (by omega), Vector.getElem?_eq_getElem (by omega)]
    simp only [Option.getD_some, storedByte, State.getV]
    congr 1
    simp only [BitVec.toNat_ofNat]
    omega
  · rfl

end Sys2Proof.Machine
end

