-- ==== Sys2Proof/Laws/Fields.lean ====
section
/-! SUPPORT. Words and fields as numbers: the value of each layout of spec/30_encoding.md R72 that carries operands,
the value of each field of R71, and from them the fields of every layout, so that no proof about decoding works on
bits again. -/

namespace Sys2Proof

theorem toNat_append_eq {m n : Nat} (a : BitVec m) (b : BitVec n) : (a ++ b).toNat = a.toNat * 2 ^ n + b.toNat := by
  rw [BitVec.toNat_append, ← Nat.shiftLeft_add_eq_or_of_lt b.isLt, Nat.shiftLeft_eq]

/-- The value of `op x y n` (R72, formats XY and XYN). -/
theorem toNat_digits (op x y n : Nibble) :
    (op ++ x ++ y ++ n : Word).toNat = op.toNat * 4096 + x.toNat * 256 + y.toNat * 16 + n.toNat := by
  rw [toNat_append_eq, toNat_append_eq, toNat_append_eq]
  omega

/-- The value of `op x nn` (R72, formats XNN and X). -/
theorem toNat_opXNN (op x : Nibble) (nn : Byte) :
    (op ++ x ++ nn : Word).toNat = op.toNat * 4096 + x.toNat * 256 + nn.toNat := by
  rw [toNat_append_eq, toNat_append_eq]
  omega

/-- The value of `op nnn` (R72, format NNN). -/
theorem toNat_opNNN (op : Nibble) (nnn : Addr) : (op ++ nnn : Word).toNat = op.toNat * 4096 + nnn.toNat :=
  toNat_append_eq op nnn

theorem toNat_fieldOp (w : Word) : (fieldOp w).toNat = w.toNat / 4096 := by
  have := w.isLt
  simp [fieldOp, Nat.shiftRight_eq_div_pow]
  omega

theorem toNat_fieldX (w : Word) : (fieldX w).toNat = w.toNat / 256 % 16 := by
  simp [fieldX, Nat.shiftRight_eq_div_pow]

theorem toNat_fieldY (w : Word) : (fieldY w).toNat = w.toNat / 16 % 16 := by
  simp [fieldY, Nat.shiftRight_eq_div_pow]

theorem toNat_fieldN (w : Word) : (fieldN w).toNat = w.toNat % 16 := by
  simp [fieldN]

theorem toNat_fieldNN (w : Word) : (fieldNN w).toNat = w.toNat % 256 := by
  simp [fieldNN]

theorem toNat_fieldNNN (w : Word) : (fieldNNN w).toNat = w.toNat % 4096 := by
  simp [fieldNNN]

section Digits
variable (op x y n : Nibble)

@[simp] theorem fieldOp_digits : fieldOp (op ++ x ++ y ++ n) = op := by
  have := x.isLt; have := y.isLt; have := n.isLt
  apply BitVec.eq_of_toNat_eq; rw [toNat_fieldOp, toNat_digits]; omega

@[simp] theorem fieldX_digits : fieldX (op ++ x ++ y ++ n) = x := by
  have := x.isLt; have := y.isLt; have := n.isLt
  apply BitVec.eq_of_toNat_eq; rw [toNat_fieldX, toNat_digits]; omega

@[simp] theorem fieldY_digits : fieldY (op ++ x ++ y ++ n) = y := by
  have := x.isLt; have := y.isLt; have := n.isLt
  apply BitVec.eq_of_toNat_eq; rw [toNat_fieldY, toNat_digits]; omega

@[simp] theorem fieldN_digits : fieldN (op ++ x ++ y ++ n) = n := by
  have := x.isLt; have := y.isLt; have := n.isLt
  apply BitVec.eq_of_toNat_eq; rw [toNat_fieldN, toNat_digits]; omega

end Digits

section OpXNN
variable (op x : Nibble) (nn : Byte)

@[simp] theorem fieldOp_opXNN : fieldOp (op ++ x ++ nn) = op := by
  have := x.isLt; have := nn.isLt
  apply BitVec.eq_of_toNat_eq; rw [toNat_fieldOp, toNat_opXNN]; omega

@[simp] theorem fieldX_opXNN : fieldX (op ++ x ++ nn) = x := by
  have := x.isLt; have := nn.isLt
  apply BitVec.eq_of_toNat_eq; rw [toNat_fieldX, toNat_opXNN]; omega

@[simp] theorem fieldNN_opXNN : fieldNN (op ++ x ++ nn) = nn := by
  have := x.isLt; have := nn.isLt
  apply BitVec.eq_of_toNat_eq; rw [toNat_fieldNN, toNat_opXNN]; omega

end OpXNN

section OpNNN
variable (op : Nibble) (nnn : Addr)

@[simp] theorem fieldOp_opNNN : fieldOp (op ++ nnn) = op := by
  have := nnn.isLt
  apply BitVec.eq_of_toNat_eq; rw [toNat_fieldOp, toNat_opNNN]; omega

@[simp] theorem fieldNNN_opNNN : fieldNNN (op ++ nnn) = nnn := by
  have := nnn.isLt
  apply BitVec.eq_of_toNat_eq; rw [toNat_fieldNNN, toNat_opNNN]; omega

end OpNNN

/-- A word is its four digits. -/
theorem word_eq_digits (w : Word) : fieldOp w ++ fieldX w ++ fieldY w ++ fieldN w = w := by
  have := w.isLt
  apply BitVec.eq_of_toNat_eq
  rw [toNat_digits, toNat_fieldOp, toNat_fieldX, toNat_fieldY, toNat_fieldN]; omega

/-- A word is its first two digits and its low byte. -/
theorem word_eq_opXNN (w : Word) : fieldOp w ++ fieldX w ++ fieldNN w = w := by
  have := w.isLt
  apply BitVec.eq_of_toNat_eq
  rw [toNat_opXNN, toNat_fieldOp, toNat_fieldX, toNat_fieldNN]; omega

/-- A word is its first digit and its low twelve bits. -/
theorem word_eq_opNNN (w : Word) : fieldOp w ++ fieldNNN w = w := by
  have := w.isLt
  apply BitVec.eq_of_toNat_eq
  rw [toNat_opNNN, toNat_fieldOp, toNat_fieldNNN]; omega

/-- Two bytes laid out in memory are the word again (R50). -/
theorem wordBytes_append (w : Word) : w.extractLsb' 8 8 ++ w.extractLsb' 0 8 = w := by
  have := w.isLt
  apply BitVec.eq_of_toNat_eq
  rw [toNat_append_eq]
  simp [Nat.shiftRight_eq_div_pow]
  omega

end Sys2Proof
end

