-- ==== Sys2Proof/Laws/PerInstr.lean ====
section
/-! SUPPORT. One statement about every instruction as syntax, lemma by lemma: its encoding fits the row of the opcode
map that its pattern names (spec/30_encoding.md R76). -/

namespace Sys2Proof

theorem append_and_append {m n : Nat} (a c : BitVec m) (b d : BitVec n) : (a ++ b) &&& (c ++ d) = (a &&& c) ++ (b &&& d) := by
  apply BitVec.eq_of_getLsbD_eq
  intro i hi
  simp only [BitVec.getLsbD_and, BitVec.getLsbD_append]
  split <;> rfl

/-- The mask of formats NNN, XNN and XYN keeps the first digit. -/
theorem and_F000 (w : Word) : w &&& 0xF000#16 = fieldOp w ++ 0#12 := by
  have h := append_and_append (fieldOp w) 0xF#4 (fieldNNN w) 0#12
  rw [show fieldOp w &&& 0xF#4 = fieldOp w from BitVec.and_allOnes, BitVec.and_zero] at h
  rw [← h, word_eq_opNNN]
  rfl

/-- The mask of format XY keeps the first and the last digit. -/
theorem and_F00F (w : Word) : w &&& 0xF00F#16 = fieldOp w ++ 0#4 ++ 0#4 ++ fieldN w := by
  have h1 := append_and_append (fieldOp w ++ fieldX w ++ fieldY w) (0xF#4 ++ 0#4 ++ 0#4) (fieldN w) 0xF#4
  have h2 := append_and_append (fieldOp w ++ fieldX w) (0xF#4 ++ 0#4) (fieldY w) 0#4
  have h3 := append_and_append (fieldOp w) 0xF#4 (fieldX w) 0#4
  rw [show fieldN w &&& 0xF#4 = fieldN w from BitVec.and_allOnes] at h1
  rw [show fieldOp w &&& 0xF#4 = fieldOp w from BitVec.and_allOnes, BitVec.and_zero] at h3
  rw [BitVec.and_zero, h3] at h2
  rw [h2] at h1
  rw [← h1, word_eq_digits]
  rfl

/-- The mask of format X keeps the first digit and the low byte. -/
theorem and_F0FF (w : Word) : w &&& 0xF0FF#16 = fieldOp w ++ 0#4 ++ fieldNN w := by
  have h1 := append_and_append (fieldOp w ++ fieldX w) (0xF#4 ++ 0#4) (fieldNN w) 0xFF#8
  have h2 := append_and_append (fieldOp w) 0xF#4 (fieldX w) 0#4
  rw [show fieldNN w &&& 0xFF#8 = fieldNN w from BitVec.and_allOnes] at h1
  rw [show fieldOp w &&& 0xF#4 = fieldOp w from BitVec.and_allOnes, BitVec.and_zero] at h2
  rw [h2] at h1
  rw [← h1, word_eq_opXNN]
  rfl

/-- The encoding of an instruction fits its row. -/
def Laws.EncodingFitsTable.Statement (i : Instr) : Prop := fitsInstr i (encode i) = true

/-- Fitting a row with its mask and pattern read off the table. -/
theorem fitsInstr_of_row {i : Instr} {w : Word} {r : Row} (hr : opcodeTable[rowNumber i]? = some r)
    (h : w &&& r.mask = r.pattern) : fitsInstr i w = true := by
  simp [fitsInstr, hr, fitsRow, h]

theorem Laws.EncodingFitsTable.cls : Laws.EncodingFitsTable.Statement (.cls) :=
  fitsInstr_of_row rfl rfl

theorem Laws.EncodingFitsTable.ret : Laws.EncodingFitsTable.Statement (.ret) :=
  fitsInstr_of_row rfl rfl

theorem Laws.EncodingFitsTable.jp (nnn : Addr) : Laws.EncodingFitsTable.Statement (.jp nnn) :=
  fitsInstr_of_row rfl (by simp [encode, and_F000])

theorem Laws.EncodingFitsTable.call (nnn : Addr) : Laws.EncodingFitsTable.Statement (.call nnn) :=
  fitsInstr_of_row rfl (by simp [encode, and_F000])

theorem Laws.EncodingFitsTable.seByte (x : Reg) (nn : Byte) : Laws.EncodingFitsTable.Statement (.seByte x nn) :=
  fitsInstr_of_row rfl (by simp [encode, and_F000])

theorem Laws.EncodingFitsTable.sneByte (x : Reg) (nn : Byte) : Laws.EncodingFitsTable.Statement (.sneByte x nn) :=
  fitsInstr_of_row rfl (by simp [encode, and_F000])

theorem Laws.EncodingFitsTable.seReg (x y : Reg) : Laws.EncodingFitsTable.Statement (.seReg x y) :=
  fitsInstr_of_row rfl (by simp [encode, and_F00F])

theorem Laws.EncodingFitsTable.ldByte (x : Reg) (nn : Byte) : Laws.EncodingFitsTable.Statement (.ldByte x nn) :=
  fitsInstr_of_row rfl (by simp [encode, and_F000])

theorem Laws.EncodingFitsTable.addByte (x : Reg) (nn : Byte) : Laws.EncodingFitsTable.Statement (.addByte x nn) :=
  fitsInstr_of_row rfl (by simp [encode, and_F000])

theorem Laws.EncodingFitsTable.ldReg (x y : Reg) : Laws.EncodingFitsTable.Statement (.ldReg x y) :=
  fitsInstr_of_row rfl (by simp [encode, and_F00F])

theorem Laws.EncodingFitsTable.orReg (x y : Reg) : Laws.EncodingFitsTable.Statement (.orReg x y) :=
  fitsInstr_of_row rfl (by simp [encode, and_F00F])

theorem Laws.EncodingFitsTable.andReg (x y : Reg) : Laws.EncodingFitsTable.Statement (.andReg x y) :=
  fitsInstr_of_row rfl (by simp [encode, and_F00F])

theorem Laws.EncodingFitsTable.xorReg (x y : Reg) : Laws.EncodingFitsTable.Statement (.xorReg x y) :=
  fitsInstr_of_row rfl (by simp [encode, and_F00F])

theorem Laws.EncodingFitsTable.addReg (x y : Reg) : Laws.EncodingFitsTable.Statement (.addReg x y) :=
  fitsInstr_of_row rfl (by simp [encode, and_F00F])

theorem Laws.EncodingFitsTable.subReg (x y : Reg) : Laws.EncodingFitsTable.Statement (.subReg x y) :=
  fitsInstr_of_row rfl (by simp [encode, and_F00F])

theorem Laws.EncodingFitsTable.shr (x y : Reg) : Laws.EncodingFitsTable.Statement (.shr x y) :=
  fitsInstr_of_row rfl (by simp [encode, and_F00F])

theorem Laws.EncodingFitsTable.subnReg (x y : Reg) : Laws.EncodingFitsTable.Statement (.subnReg x y) :=
  fitsInstr_of_row rfl (by simp [encode, and_F00F])

theorem Laws.EncodingFitsTable.shl (x y : Reg) : Laws.EncodingFitsTable.Statement (.shl x y) :=
  fitsInstr_of_row rfl (by simp [encode, and_F00F])

theorem Laws.EncodingFitsTable.sneReg (x y : Reg) : Laws.EncodingFitsTable.Statement (.sneReg x y) :=
  fitsInstr_of_row rfl (by simp [encode, and_F00F])

theorem Laws.EncodingFitsTable.ldI (nnn : Addr) : Laws.EncodingFitsTable.Statement (.ldI nnn) :=
  fitsInstr_of_row rfl (by simp [encode, and_F000])

theorem Laws.EncodingFitsTable.jpV0 (nnn : Addr) : Laws.EncodingFitsTable.Statement (.jpV0 nnn) :=
  fitsInstr_of_row rfl (by simp [encode, and_F000])

theorem Laws.EncodingFitsTable.rnd (x : Reg) (nn : Byte) : Laws.EncodingFitsTable.Statement (.rnd x nn) :=
  fitsInstr_of_row rfl (by simp [encode, and_F000])

theorem Laws.EncodingFitsTable.drw (x y : Reg) (n : Nibble) : Laws.EncodingFitsTable.Statement (.drw x y n) :=
  fitsInstr_of_row rfl (by simp [encode, and_F000])

theorem Laws.EncodingFitsTable.skp (x : Reg) : Laws.EncodingFitsTable.Statement (.skp x) :=
  fitsInstr_of_row rfl (by simp [encode, and_F0FF])

theorem Laws.EncodingFitsTable.sknp (x : Reg) : Laws.EncodingFitsTable.Statement (.sknp x) :=
  fitsInstr_of_row rfl (by simp [encode, and_F0FF])

theorem Laws.EncodingFitsTable.ldVxDt (x : Reg) : Laws.EncodingFitsTable.Statement (.ldVxDt x) :=
  fitsInstr_of_row rfl (by simp [encode, and_F0FF])

theorem Laws.EncodingFitsTable.ldVxK (x : Reg) : Laws.EncodingFitsTable.Statement (.ldVxK x) :=
  fitsInstr_of_row rfl (by simp [encode, and_F0FF])

theorem Laws.EncodingFitsTable.ldDtVx (x : Reg) : Laws.EncodingFitsTable.Statement (.ldDtVx x) :=
  fitsInstr_of_row rfl (by simp [encode, and_F0FF])

theorem Laws.EncodingFitsTable.ldStVx (x : Reg) : Laws.EncodingFitsTable.Statement (.ldStVx x) :=
  fitsInstr_of_row rfl (by simp [encode, and_F0FF])

theorem Laws.EncodingFitsTable.addI (x : Reg) : Laws.EncodingFitsTable.Statement (.addI x) :=
  fitsInstr_of_row rfl (by simp [encode, and_F0FF])

theorem Laws.EncodingFitsTable.ldF (x : Reg) : Laws.EncodingFitsTable.Statement (.ldF x) :=
  fitsInstr_of_row rfl (by simp [encode, and_F0FF])

theorem Laws.EncodingFitsTable.ldB (x : Reg) : Laws.EncodingFitsTable.Statement (.ldB x) :=
  fitsInstr_of_row rfl (by simp [encode, and_F0FF])

theorem Laws.EncodingFitsTable.storeRegs (x : Reg) : Laws.EncodingFitsTable.Statement (.storeRegs x) :=
  fitsInstr_of_row rfl (by simp [encode, and_F0FF])

theorem Laws.EncodingFitsTable.loadRegs (x : Reg) : Laws.EncodingFitsTable.Statement (.loadRegs x) :=
  fitsInstr_of_row rfl (by simp [encode, and_F0FF])

end Sys2Proof
end

