-- ==== Sys2Proof/Laws/Step.lean ====
section
/-! SUPPORT. Everything a step can do (spec/40_step_cycle.md R90), said once. -/

namespace Sys2Proof.Machine

theorem step_of_fault_none {s : State} (h : s.fault = none) : step s = runCycle s := by
  simp [step, stepCore, h]

/-- A step is one of: nothing on a faulted core; a fetch that raises; an illegal word that raises; an instruction. -/
theorem step_cases (s : State) :
    (s.fault ≠ none ∧ step s = .next s) ∨
      (s.fault = none ∧
        ((fetch? s = none ∧ step s = .next { s with fault := some .addressOutOfRange }) ∨
          (∃ w, fetch? s = some w ∧
            ((∃ e, decodeWord w = .error e ∧ step s = .next { s with fault := some .unimplementedOpcode }) ∨
              ∃ i, decodeWord w = .ok i ∧ step s = exec i s)))) := by
  cases hf : s.fault with
  | some c => exact .inl ⟨by simp, by simp [step, stepCore, hf]⟩
  | none =>
    refine .inr ⟨rfl, ?_⟩
    rw [step_of_fault_none hf]
    have e (c : Cause) : takeFault c s = .next { s with fault := some c } := by simp [takeFault_eq, hf]
    simpa only [e] using runCycle_cases s

end Sys2Proof.Machine
end

