-- ==== Sys2Proof/Tests/Slice0.lean ====
section
/-! SUPPORT. Tests on fixed values. Every expected result is read from spec/95_test_vectors.md (the id of its row
stands before each test), from a worked example of a rule, or computed by hand from the rule named. Encodings are
written bit by bit from the table of spec/30_encoding.md R76. -/

namespace Sys2Proof.Tests

open Sys2Proof Sys2Proof.Machine

/-! ## Helpers: a state that fetches one word, registers put in place, what one step leaves -/

/-- The reset state with one instruction word where the first step fetches. -/
def fetching (w : Word) : State := State.reset.withFetchWord 16 w.toNat

/-- A state with some general registers set. -/
def regs (l : List (Reg × Byte)) (s : State) : State := l.foldl (fun t p => t.setV p.1 p.2) s

/-- A state with bytes placed in memory. -/
def bytesAt (a : Nat) (bs : List Byte) (s : State) : State := { s with mem := Memory.writeList s.mem a bs }

/-- A state with some pixels set. -/
def lit (l : List (Nat × Nat)) (s : State) : State :=
  { s with disp := (l.foldl (fun d p => togglePixel d p.1 p.2) (s.disp, false)).1 }

/-- A state with some keys pressed. -/
def pressed (l : List Nat) (s : State) : State := { s with key := l.foldl (fun k j => k.setIfInBounds j true) s.key }

/-- What a test reads from the state that one step leaves; none where the step does not answer a next state. -/
def after {α : Type} (s : State) (read : State → α) : Option α :=
  match step s with
  | .next t => some (read t)
  | _ => none

/-- The bytes of memory at some addresses. -/
def bytes (t : State) (l : List Nat) : List Byte := l.map (Memory.read t.mem)

/-- The pixels that are set, row by row. -/
def litRows (t : State) : List (Nat × BitVec 64) :=
  ((List.range 32).map fun py => (py, t.disp[py]?.getD 0)).filter fun p => p.2 != 0

/-! ## Decoding: one word for each constructor, its sixteen bits written out -/

theorem test_decode_cls : decodeWord 0b0000_0000_1110_0000#16 = .ok .cls := by decide
theorem test_decode_ret : decodeWord 0b0000_0000_1110_1110#16 = .ok .ret := by decide
theorem test_decode_jp : decodeWord 0b0001_1010_1011_1100#16 = .ok (.jp 0xABC) := by decide
theorem test_decode_call : decodeWord 0b0010_0011_0100_0101#16 = .ok (.call 0x345) := by decide
theorem test_decode_seByte : decodeWord 0b0011_1010_0100_0010#16 = .ok (.seByte 0xA 0x42) := by decide
theorem test_decode_sneByte : decodeWord 0b0100_1010_0100_0010#16 = .ok (.sneByte 0xA 0x42) := by decide
theorem test_decode_seReg : decodeWord 0b0101_0001_0010_0000#16 = .ok (.seReg 1 2) := by decide
theorem test_decode_ldByte : decodeWord 0b0110_1111_1010_1011#16 = .ok (.ldByte 0xF 0xAB) := by decide
theorem test_decode_addByte : decodeWord 0b0111_1010_1111_1111#16 = .ok (.addByte 0xA 0xFF) := by decide
theorem test_decode_ldReg : decodeWord 0b1000_0001_0010_0000#16 = .ok (.ldReg 1 2) := by decide
theorem test_decode_orReg : decodeWord 0b1000_0001_0010_0001#16 = .ok (.orReg 1 2) := by decide
theorem test_decode_andReg : decodeWord 0b1000_0001_0010_0010#16 = .ok (.andReg 1 2) := by decide
theorem test_decode_xorReg : decodeWord 0b1000_0001_0010_0011#16 = .ok (.xorReg 1 2) := by decide
theorem test_decode_addReg : decodeWord 0b1000_1111_0001_0100#16 = .ok (.addReg 0xF 1) := by decide
theorem test_decode_subReg : decodeWord 0b1000_0001_0010_0101#16 = .ok (.subReg 1 2) := by decide
theorem test_decode_shr : decodeWord 0b1000_1010_1011_0110#16 = .ok (.shr 0xA 0xB) := by decide
theorem test_decode_subnReg : decodeWord 0b1000_0001_0010_0111#16 = .ok (.subnReg 1 2) := by decide
theorem test_decode_shl : decodeWord 0b1000_1111_0000_1110#16 = .ok (.shl 0xF 0) := by decide
theorem test_decode_sneReg : decodeWord 0b1001_0001_0010_0000#16 = .ok (.sneReg 1 2) := by decide
theorem test_decode_ldI : decodeWord 0b1010_0001_0010_0011#16 = .ok (.ldI 0x123) := by decide
theorem test_decode_jpV0 : decodeWord 0b1011_0011_0000_0000#16 = .ok (.jpV0 0x300) := by decide
theorem test_decode_rnd : decodeWord 0b1100_0001_0000_1111#16 = .ok (.rnd 1 0x0F) := by decide
theorem test_decode_drw : decodeWord 0b1101_0001_0010_0101#16 = .ok (.drw 1 2 5) := by decide
theorem test_decode_skp : decodeWord 0b1110_0100_1001_1110#16 = .ok (.skp 4) := by decide
theorem test_decode_sknp : decodeWord 0b1110_0100_1010_0001#16 = .ok (.sknp 4) := by decide
theorem test_decode_ldVxDt : decodeWord 0b1111_0101_0000_0111#16 = .ok (.ldVxDt 5) := by decide
theorem test_decode_ldVxK : decodeWord 0b1111_0011_0000_1010#16 = .ok (.ldVxK 3) := by decide
theorem test_decode_ldDtVx : decodeWord 0b1111_0101_0001_0101#16 = .ok (.ldDtVx 5) := by decide
theorem test_decode_ldStVx : decodeWord 0b1111_0101_0001_1000#16 = .ok (.ldStVx 5) := by decide
theorem test_decode_addI : decodeWord 0b1111_0010_0001_1110#16 = .ok (.addI 2) := by decide
theorem test_decode_ldF : decodeWord 0b1111_0000_0010_1001#16 = .ok (.ldF 0) := by decide
theorem test_decode_ldB : decodeWord 0b1111_0010_0011_0011#16 = .ok (.ldB 2) := by decide
theorem test_decode_storeRegs : decodeWord 0b1111_0010_0101_0101#16 = .ok (.storeRegs 2) := by decide
theorem test_decode_loadRegs : decodeWord 0b1111_1111_0110_0101#16 = .ok (.loadRegs 0xF) := by decide

/-- Section 2.6 of 95_test_vectors.md: the words that decode to nothing, each refused by name and by the map. -/
theorem test_illegal_words :
    ([0x0000, 0x00E1, 0x00FF, 0x0123, 0x5121, 0x8008, 0x812F, 0x9AB1, 0xE000, 0xE19F, 0xF000, 0xF075, 0xF102,
      0xF1FF].map fun w => (match decodeWord (BitVec.ofNat 16 w) with | .ok _ => none | .error e => some e)) =
    [some .zeroGroup, some .zeroGroup, some .zeroGroup, some .zeroGroup, some .fiveGroup, some .eightGroup,
      some .eightGroup, some .nineGroup, some .eGroup, some .eGroup, some .fGroup, some .fGroup, some .fGroup,
      some .fGroup] := by decide

/-- A list with no instruction word in it is refused by name. -/
theorem test_decode_too_short : decodeBytes [] = .error .tooShort ∧ decodeBytes [0x00] = .error .tooShort := by decide

/-- Two words in a row, high byte first (S14). -/
theorem test_decode_bytes : decodeBytes [0x00, 0xE0, 0x60, 0x05] = .ok (.cls, [0x60, 0x05]) ∧
    decodeBytes [0x60, 0x05] = .ok (.ldByte 0 5, []) := by decide

/-! ## Well-formed words -/

/-- One ill-formed word for each class of R77, which the check refuses; the words of section 2.6 that are legal. -/
theorem test_wellFormed_smoke :
    ([0x0000, 0x5121, 0x8008, 0x9AB1, 0xE19F, 0xF102].all fun w => legalWord (BitVec.ofNat 16 w) == false) = true ∧
    ([0x8AB6, 0x8A06, 0x5FF0, 0xD000, 0xFF65, 0xEF9E].all fun w => legalWord (BitVec.ofNat 16 w)) = true := by decide

/-- A word of one row is refused for an instruction of another row. -/
theorem test_fitsInstr_smoke : fitsInstr (.addReg 1 2) 0x8125 = false ∧ fitsInstr (.subReg 1 2) 0x8125 = true ∧
    fitsInstr .cls 0x00EE = false := by decide

/-- The map has 34 rows (R76), no two of which fit one word (R74): inside the bits both rows fix they differ. -/
theorem test_rows_disjoint : opcodeTable.length = 34 ∧
    opcodeTable.Pairwise fun r q => r.pattern &&& (r.mask &&& q.mask) ≠ q.pattern &&& (r.mask &&& q.mask) := by decide

/-! ## Control flow -/

/-- CF3: a full stack pops from slot 15, and the slot keeps its contents (R29). -/
theorem test_ret_full : after { fetching 0x00EE with sp := 16, stack := (Vector.replicate 16 0).set 15 0xABC }
    (fun t => (t.pc, t.sp.val, t.stack[15], t.fault)) = some (0xABC, 15, 0xABC, none) := by decide
/-- CF2. -/
theorem test_ret_empty : after (fetching 0x00EE) (fun t => (t.pc, t.sp.val, t.fault)) =
    some (0x200, 0, some .stackUnderflow) := by decide
/-- CF6. -/
theorem test_jp_odd : after (fetching 0x1FFF) (fun t => (t.pc, t.fault)) = some (0xFFF, none) := by decide
/-- CF8. -/
theorem test_call_sixteenth : after { fetching 0x2300 with sp := 15 } (fun t => (t.pc, t.sp.val, t.stack[15])) =
    some (0x300, 16, 0x202) := by decide
/-- CF9. -/
theorem test_call_overflow : after { fetching 0x2300 with sp := 16 } (fun t => (t.pc, t.sp.val, t.stack[15], t.fault)) =
    some (0x200, 16, 0, some .stackOverflow) := by decide
/-- CF12: no wrap, and the base is V0 (V[F] differs). -/
theorem test_jpV0_no_wrap : after (regs [(0, 0xFF), (0xF, 1)] (fetching 0xBFFF)) (fun t => (t.pc, t.fault)) =
    some (0x10FE, none) := by decide
/-- CF13, CF14. -/
theorem test_seByte : after (regs [(0xA, 0x42)] (fetching 0x3A42)) State.pc = some 0x204 ∧
    after (regs [(0xA, 0x43)] (fetching 0x3A42)) State.pc = some 0x202 := by decide
/-- CF15, CF16. -/
theorem test_sneByte : after (regs [(0xA, 0x42)] (fetching 0x4A42)) State.pc = some 0x202 ∧
    after (regs [(0xA, 0x43)] (fetching 0x4A42)) State.pc = some 0x204 := by decide
/-- CF17, CF18. -/
theorem test_seReg : after (regs [(1, 7), (2, 7)] (fetching 0x5120)) State.pc = some 0x204 ∧
    after (regs [(1, 7), (2, 8)] (fetching 0x5120)) State.pc = some 0x202 := by decide
/-- CF20, CF21. -/
theorem test_sneReg : after (regs [(1, 7), (2, 7)] (fetching 0x9120)) State.pc = some 0x202 ∧
    after (regs [(1, 7), (2, 8)] (fetching 0x9120)) State.pc = some 0x204 := by decide

/-! ## Load and arithmetic -/

/-- ALU1. -/
theorem test_ldByte : after (fetching 0x6FAB) (fun t => (t.getV 0xF, t.pc)) = some (0xAB, 0x202) := by decide
/-- ALU3: wraps, no flag. -/
theorem test_addByte_wraps : after (regs [(0xA, 0xFF), (0xF, 7)] (fetching 0x7A01)) (fun t => (t.getV 0xA, t.getV 0xF)) =
    some (0, 7) := by decide
/-- ALU5. -/
theorem test_ldReg : after (regs [(1, 1), (2, 0x5A), (0xF, 9)] (fetching 0x8120))
    (fun t => (t.getV 1, t.getV 2, t.getV 0xF)) = some (0x5A, 0x5A, 9) := by decide
/-- R123's example, with VF as in ALU6. -/
theorem test_orReg : after (regs [(1, 0xF0), (2, 0x3C), (0xF, 9)] (fetching 0x8121)) (fun t => (t.getV 1, t.getV 0xF)) =
    some (0xFC, 9) := by decide
/-- ALU7. -/
theorem test_andReg : after (regs [(1, 0xFC), (2, 0x3F), (0xF, 9)] (fetching 0x8122)) (fun t => (t.getV 1, t.getV 0xF)) =
    some (0x3C, 9) := by decide
/-- R125's example, with VF as in ALU8. -/
theorem test_xorReg : after (regs [(1, 0xF0), (2, 0x3C), (0xF, 9)] (fetching 0x8123)) (fun t => (t.getV 1, t.getV 0xF)) =
    some (0xCC, 9) := by decide
/-- ALU9, ALU12. -/
theorem test_addReg_carry : after (regs [(1, 250), (2, 10)] (fetching 0x8124)) (fun t => (t.getV 1, t.getV 0xF)) =
    some (4, 1) ∧
    after (regs [(1, 255)] (fetching 0x8124)) (fun t => (t.getV 1, t.getV 0xF)) = some (255, 0) := by decide
/-- ALU14, ALU15: destination VF, source VF. -/
theorem test_addReg_flag_register : after (regs [(0xF, 200), (1, 100)] (fetching 0x8F14)) (State.getV · 0xF) = some 1 ∧
    after (regs [(1, 10), (0xF, 250)] (fetching 0x81F4)) (fun t => (t.getV 1, t.getV 0xF)) = some (4, 1) := by decide
/-- ALU17, ALU18. -/
theorem test_subReg_borrow : after (regs [(1, 3), (2, 10)] (fetching 0x8125)) (fun t => (t.getV 1, t.getV 0xF)) =
    some (0xF9, 0) ∧
    after (regs [(1, 5), (2, 5)] (fetching 0x8125)) (fun t => (t.getV 1, t.getV 0xF)) = some (0, 1) := by decide
/-- ALU20. -/
theorem test_subReg_flag_register : after (regs [(0xF, 5), (1, 3)] (fetching 0x8F15)) (State.getV · 0xF) = some 1 := by
  decide
/-- ALU25: Vy ignored. -/
theorem test_shr : after (regs [(1, 5), (2, 0xFF)] (fetching 0x8126)) (fun t => (t.getV 1, t.getV 0xF, t.getV 2)) =
    some (2, 1, 0xFF) := by decide
/-- ALU28: the shifted old VF wins. -/
theorem test_shr_flag_register : after (regs [(0xF, 7)] (fetching 0x8FF6)) (State.getV · 0xF) = some 3 := by decide
/-- ALU21, ALU22. -/
theorem test_subnReg : after (regs [(1, 3), (2, 10)] (fetching 0x8127)) (fun t => (t.getV 1, t.getV 0xF)) = some (7, 1) ∧
    after (regs [(1, 10), (2, 3)] (fetching 0x8127)) (fun t => (t.getV 1, t.getV 0xF)) = some (0xF9, 0) := by decide
/-- ALU29, ALU30. -/
theorem test_shl : after (regs [(1, 0x81), (2, 0xFF)] (fetching 0x812E)) (fun t => (t.getV 1, t.getV 0xF, t.getV 2)) =
    some (0x02, 1, 0xFF) ∧
    after (regs [(1, 0x40), (0xF, 1)] (fetching 0x812E)) (fun t => (t.getV 1, t.getV 0xF)) = some (0x80, 0) := by decide
/-- ALU32: the shifted old VF wins. -/
theorem test_shl_flag_register : after (regs [(0xF, 0x81)] (fetching 0x8FFE)) (State.getV · 0xF) = some 0x02 := by decide
/-- ALU33 and ALU34, for whatever byte is drawn: only bits of the mask; one draw used. -/
theorem test_rnd : after (fetching 0xC10F) (fun t => (t.getV 1, t.pc, t.draws)) =
    some (Config.rnd 0 &&& 0x0F, 0x202, 1) := by rfl

/-! ## The address register and memory -/

/-- IDX1. -/
theorem test_ldI : after { fetching 0xA123 with i := 0xF000 } (fun t => (t.i, t.pc)) = some (0x123, 0x202) := by decide
/-- IDX4: wraps at 16 bits, no flag. -/
theorem test_addI_wraps : after (regs [(1, 2), (0xF, 7)] { fetching 0xF11E with i := 0xFFFF })
    (fun t => (t.i, t.getV 0xF)) = some (0x0001, 7) := by decide
/-- IDX5: not at 12 bits. -/
theorem test_addI_past_memory : after (regs [(1, 1)] { fetching 0xF11E with i := 0xFFF }) (fun t => (t.i, t.fault)) =
    some (0x1000, none) := by decide
/-- IDX6, IDX8: no mask. -/
theorem test_ldF : after (regs [(0, 0x0A)] (fetching 0xF029)) State.i = some 0x32 ∧
    after (regs [(0, 0xFF)] (fetching 0xF029)) State.i = some 0x4FB := by decide
/-- MEM1 and MEM4: the last legal base. -/
theorem test_ldB : after (regs [(2, 156)] { fetching 0xF233 with i := 0x300 })
      (fun t => (bytes t [0x2FF, 0x300, 0x301, 0x302, 0x303], t.i)) = some ([0, 1, 5, 6, 0], 0x300) ∧
    after (regs [(2, 255)] { fetching 0xF233 with i := 0xFFD }) (fun t => bytes t [0xFFD, 0xFFE, 0xFFF]) =
      some [2, 5, 5] := by decide
/-- MEM5: no partial store. -/
theorem test_ldB_range : after (regs [(2, 255)] { fetching 0xF233 with i := 0xFFE })
    (fun t => (bytes t [0xFFE, 0xFFF], t.pc, t.fault)) = some ([0, 0], 0x200, some .addressOutOfRange) := by decide
/-- MEM7: `x + 1` bytes, `I` unchanged. -/
theorem test_storeRegs : after (regs [(0, 0x11), (1, 0x22), (2, 0x33), (3, 0x44)] { fetching 0xF255 with i := 0x400 })
    (fun t => (bytes t [0x3FF, 0x400, 0x401, 0x402, 0x403], t.i)) = some ([0, 0x11, 0x22, 0x33, 0], 0x400) := by decide
/-- MEM11: the last byte; one register more raises and stores nothing. -/
theorem test_storeRegs_range :
    after (regs [(0, 0xA0)] { fetching 0xF055 with i := 0xFFF }) (fun t => (bytes t [0xFFF], t.fault)) =
      some ([0xA0], none) ∧
    after (regs [(0, 0xA0)] { fetching 0xF155 with i := 0xFFF }) (fun t => (bytes t [0xFFF], t.fault)) =
      some ([0], some .addressOutOfRange) := by decide
/-- MEM12. -/
theorem test_loadRegs :
    after (regs [(3, 0x77)] (bytesAt 0x400 [0xDE, 0xAD, 0xBE, 0xEF] { fetching 0xF265 with i := 0x400 }))
      (fun t => (t.getV 0, t.getV 1, t.getV 2, t.getV 3, t.i)) = some (0xDE, 0xAD, 0xBE, 0x77, 0x400) := by decide
/-- MEM13 and MEM15: the font, and the instruction's own bytes. -/
theorem test_loadRegs_font_and_code :
    after (fetching 0xF465) (fun t => (t.getV 0, t.getV 1, t.getV 2, t.getV 3, t.getV 4)) =
      some (0xF0, 0x90, 0x90, 0x90, 0xF0) ∧
    after { fetching 0xF165 with i := 0x200 } (fun t => (t.getV 0, t.getV 1)) = some (0xF1, 0x65) := by decide

/-! ## Display -/

/-- DSP1, on some set pixels: VF untouched. -/
theorem test_cls : after (regs [(0xF, 1)] (lit [(0, 0), (63, 31)] (fetching 0x00E0)))
    (fun t => (litRows t, t.getV 0xF, t.pc)) = some ([], 1, 0x202) := by decide
/-- DSP4: wraps per pixel, in the same row. -/
theorem test_drw_wraps : after (regs [(1, 62), (2, 5)] (bytesAt 0x300 [0xF0] { fetching 0xD121 with i := 0x300 }))
    (fun t => (litRows t, t.getV 0xF)) = some ([(5, 0xC000000000000003)], 0) := by decide
/-- DSP10: a collision in the first row only is still reported. -/
theorem test_drw_collision : after (lit [(0, 0)] (bytesAt 0x300 [0x80, 0x80] { fetching 0xD002 with i := 0x300 }))
    (fun t => (litRows t, t.getV 0xF)) = some ([(1, 1)], 1) := by decide

/-! ## Keypad and timers -/

/-- KEY1, KEY5. -/
theorem test_skp : after (pressed [7] (regs [(4, 7)] (fetching 0xE49E))) State.pc = some 0x204 ∧
    after (regs [(4, 16)] (fetching 0xE49E)) (fun t => (t.pc, t.fault)) = some (0x200, some .invalidInputIndex) := by
  decide
/-- KEY4, KEY6: not masked to 15. -/
theorem test_sknp : after (regs [(4, 7)] (fetching 0xE4A1)) State.pc = some 0x204 ∧
    after (regs [(4, 0xFF)] (fetching 0xE4A1)) (fun t => (t.pc, t.fault)) = some (0x200, some .invalidInputIndex) := by
  decide
/-- KEY7: nothing changed. -/
theorem test_ldVxK_waits : after (regs [(3, 0x55)] (fetching 0xF30A)) id = some (regs [(3, 0x55)] (fetching 0xF30A)) := by
  decide
/-- KEY8: the lowest of two; the latches stay set. -/
theorem test_ldVxK_lowest : after (pressed [9, 3] (regs [(3, 0x55)] (fetching 0xF30A)))
    (fun t => (t.getV 3, t.pc, t.keyDown 3, t.keyDown 9)) = some (3, 0x202, true, true) := by decide
/-- TMR1. -/
theorem test_ldVxDt : after { fetching 0xF507 with dt := 0x3C, st := 1 } (fun t => (t.getV 5, t.dt)) =
    some (0x3C, 0x3C) := by decide
/-- TMR2. -/
theorem test_ldDtVx : after (regs [(5, 60)] (fetching 0xF515)) (fun t => (t.dt, t.st)) = some (60, 0) := by decide
/-- TMR3. -/
theorem test_ldStVx : after (regs [(5, 2)] (fetching 0xF518)) (fun t => (t.dt, t.st)) = some (0, 2) := by decide

/-! ## Fetch, faults, the host -/

/-- FET1: the second byte does not exist. -/
theorem test_fetch_last_byte : after { State.reset with pc := 0xFFF } (fun t => (t.pc, t.fault)) =
    some (0xFFF, some .addressOutOfRange) := by decide
/-- FET3: the last instruction slot. -/
theorem test_fetch_last_slot : after (bytesAt 0xFFE [0x60, 0x05] { State.reset with pc := 0xFFE })
    (fun t => (t.getV 0, t.pc, t.fault)) = some (5, 0x1000, none) := by decide
/-- CF24: an odd `pc` executes. -/
theorem test_fetch_odd : after (bytesAt 0x201 [0x60, 0x12] { State.reset with pc := 0x201 })
    (fun t => (t.getV 0, t.pc)) = some (0x12, 0x203) := by decide
/-- R215: a core with no program loaded. -/
theorem test_step_reset : after State.reset id = some { State.reset with fault := some .unimplementedOpcode } := by decide
/-- HOST5, HOST6 in little: a bad key index latches, and a later illegal step does not change the latch. -/
theorem test_first_fault : runTrace [.setKey 16 true, .step] State.reset =
    .next { State.reset with fault := some .invalidInputIndex } := by rfl
/-- HOST8, HOST10: ticks count down, faulted or not. -/
theorem test_tick : tickTimers { State.reset with dt := 3, st := 1, fault := some .stackOverflow } =
    { State.reset with dt := 2, st := 0, fault := some .stackOverflow } := by decide
/-- S14's payload in memory (R171's example). -/
theorem test_load : (match applyOp (.load [0x00, 0xE0, 0x60, 0x05]) State.reset with
    | .next t => some (bytes t [0x1FF, 0x200, 0x201, 0x202, 0x203, 0x204])
    | _ => none) = some [0, 0x00, 0xE0, 0x60, 0x05, 0] := by decide
/-- R39's entry point and the codes of R180. -/
theorem test_reset_outputs : State.reset.pc = 0x200 ∧ hostOutputs State.reset = (0, 0, 0) ∧
    faultCode (some .oversizedRom) = 6 := by decide
/-- The table's own numbering of bits: bit 0 is the least significant bit of the one word. -/
theorem test_table_word : decodeTableWord 16 0x8126 = some (.shr 1 2) ∧ decodeTableWord 16 0x0000 = none := by decide

end Sys2Proof.Tests
end

