-- ==== Sys2Proof/Tests/Witnesses.lean ====
section
/-! SUPPORT. For each statement of Sys2Proof/Certificates/Slice0/Obligations.lean that has hypotheses, a concrete state
and operands that meet all of them together, one for each clause, at the boundary of the clause's range. A statement
without hypotheses on its state and operands needs none. -/

namespace Sys2Proof.Tests

open Sys2Proof Sys2Proof.Machine

/-- The reset state at another `pc`. -/
def atPc (a : Word) : State := { State.reset with pc := a }

/-- The reset state with another address register. -/
def withI (a : Word) : State := { State.reset with i := a }

/-- The reset state with a number of return addresses held. -/
def withSp (n : Fin 17) : State := { State.reset with sp := n }

/-- The reset state with a cause latched. -/
def faulted : State := { State.reset with fault := some .stackUnderflow }

/-! ## Encoding, fetch, the step -/

theorem witness_DecodeAgreesWithOpcodeMap : opcodeTable[0]? = some ⟨"CLS", 0xFFFF, 0x00E0⟩ ∧
    opcodeTable[33]? = some ⟨"LD Vx, [I]", 0xF0FF, 0xF065⟩ ∧ decodeWord 0xFF65 = .ok (.loadRegs 0xF) := by decide

theorem witness_StepRunsDecodedInstruction :
    let s := bytesAt 0xFFE [0x60, 0x05] (atPc 0xFFE)
    s.fault = none ∧ s.pc.toNat + 1 ≤ 0xFFF ∧
      decodeWord (Memory.read s.mem s.pc.toNat ++ Memory.read s.mem (s.pc.toNat + 1)) = .ok (.ldByte 0 5) := by decide

theorem witness_FetchReadsTwoBytesOrFaults_low : (atPc 0xFFE).fault = none ∧ (atPc 0xFFE).pc.toNat + 1 ≤ 0xFFF := by
  decide
theorem witness_FetchReadsTwoBytesOrFaults_high : (atPc 0xFFF).fault = none ∧ 0xFFF < (atPc 0xFFF).pc.toNat + 1 := by
  decide

theorem witness_IllegalWordRaisesUnimplementedOpcode :
    State.reset.fault = none ∧ fetch? State.reset = some 0x0000 ∧ legalWord 0x0000 = false ∧
      decodeWord 0x0000 = .error .zeroGroup := by decide

theorem witness_FaultedCoreStepChangesNothing :
    faulted.fault ≠ none ∧ HostOp.tickTimers ≠ .reset ∧ HostOp.tickTimers ≠ .construct := by decide

theorem witness_FaultingStepCommitsNothing :
    ∃ t, (fetching 0x00EE).fault = none ∧ step (fetching 0x00EE) = .next t ∧ t.fault ≠ none :=
  ⟨_, rfl, rfl, by decide⟩

theorem witness_EachStepLeavesPcAsStated_fault :
    ∃ t, (atPc 0xFFF).fault = none ∧ step (atPc 0xFFF) = .next t ∧ t.fault ≠ none := ⟨_, rfl, rfl, by decide⟩
theorem witness_EachStepLeavesPcAsStated_call :
    ∃ t, (fetching 0x2300).fault = none ∧ fetch? (fetching 0x2300) = some 0x2300 ∧ decodeWord 0x2300 = .ok (.call 0x300) ∧
      step (fetching 0x2300) = .next t ∧ t.fault = none := ⟨_, rfl, rfl, rfl, rfl, rfl⟩
theorem witness_EachStepLeavesPcAsStated_skip :
    let s := bytesAt 0xFFE [0x30, 0x00] (atPc 0xFFE)
    ∃ t, s.fault = none ∧ fetch? s = some 0x3000 ∧ decodeWord 0x3000 = .ok (.seByte 0 0) ∧ step s = .next t ∧
      t.fault = none ∧ nextPc s (.seByte 0 0) = 0x1002 := ⟨_, rfl, rfl, rfl, rfl, rfl, rfl⟩
theorem witness_EachStepLeavesPcAsStated_wait :
    ∃ t, (fetching 0xF30A).fault = none ∧ fetch? (fetching 0xF30A) = some 0xF30A ∧ decodeWord 0xF30A = .ok (.ldVxK 3) ∧
      step (fetching 0xF30A) = .next t ∧ t.fault = none ∧ nextPc (fetching 0xF30A) (.ldVxK 3) = 0x200 :=
  ⟨_, rfl, rfl, rfl, rfl, rfl, rfl⟩

theorem witness_InstructionRaisesExactlyItsCheck_raises :
    raises (withSp 16) (.call 0) = some .stackOverflow ∧ raises (withSp 0) .ret = some .stackUnderflow ∧
    raises (regs [(4, 16)] State.reset) (.skp 4) = some .invalidInputIndex ∧
    raises (withI 0xFFE) (.ldB 0) = some .addressOutOfRange ∧
    raises (withI 0x1000) (.drw 0 0 1) = some .addressOutOfRange := by decide
theorem witness_InstructionRaisesExactlyItsCheck_passes :
    raises (withSp 15) (.call 0) = none ∧ raises (withSp 1) .ret = none ∧
    raises (regs [(4, 15)] State.reset) (.skp 4) = none ∧ raises (withI 0xFFD) (.ldB 0) = none ∧
    raises (withI 0xFFF) (.drw 0 0 1) = none ∧ raises (withI 0xFFFF) (.drw 0 0 0) = none := by decide

theorem witness_PlacedInstructionIsRun :
    (atPc 0xFFE).fault = none ∧ (atPc 0xFFE).pc.toNat ≤ 0xFFE ∧ Memory.wf (atPc 0xFFE).mem = true := by decide

/-! ## Frames -/

theorem witness_RegisterFrame : ∃ t, exec (.drw 0 1 2) State.reset = .next t ∧ mayWriteV (.drw 0 1 2) 0xE = false ∧
    mayWriteV (.loadRegs 3) 4 = false ∧ mayWriteV (.addReg 1 2) 2 = false := ⟨_, rfl, by decide⟩

theorem witness_IndexAndStackFrame_call : ∃ t, exec (.call 0x300) (withSp 15) = .next t ∧ 14 < (withSp 15).sp.val ∧
    writesI (.call 0x300) = false := ⟨_, rfl, by decide⟩
theorem witness_IndexAndStackFrame_ret : ∃ t, exec .ret (withSp 16) = .next t ∧ 15 < (withSp 16).sp.val :=
  ⟨_, rfl, by decide⟩
theorem witness_IndexAndStackFrame_other : ∃ t, exec (.ldI 0x300) (withSp 1) = .next t ∧
    writesStack (.ldI 0x300) = false ∧ 0 < (withSp 1).sp.val := ⟨_, rfl, by decide⟩

theorem witness_TimerKeyAndFaultFrame : ∃ t, exec (.storeRegs 3) faulted = .next t ∧
    (∀ x, Instr.storeRegs 3 ≠ .ldDtVx x) ∧ (∀ x, Instr.storeRegs 3 ≠ .ldStVx x) ∧
    (∀ x nn, Instr.storeRegs 3 ≠ .rnd x nn) ∧ faulted.fault ≠ none :=
  ⟨_, rfl, nofun, nofun, nofun, by decide⟩

theorem witness_DisplayFrame : ∃ t, exec (.ldB 2) (withI 0x300) = .next t ∧ writesDisplay (.ldB 2) = false :=
  ⟨_, rfl, by decide⟩

theorem witness_MemoryFrame : ∃ t, Memory.wf (withI 0xFFD).mem = true ∧ exec (.ldB 2) (withI 0xFFD) = .next t ∧
    ¬ ((withI 0xFFD).base ≤ 0xFFC ∧ 0xFFC < (withI 0xFFD).base + storeCount (.ldB 2)) ∧
    ¬ ((withI 0xFFD).base ≤ 0x1000 ∧ 0x1000 < (withI 0xFFD).base + storeCount (.ldB 2)) :=
  ⟨_, rfl, rfl, by decide, by decide⟩

/-! ## Control flow -/

theorem witness_ReturnPopsIntoPc : (withSp 0).sp.val = 0 ∧ 0 < (withSp 1).sp.val ∧ 0 < (withSp 16).sp.val := by decide

theorem witness_CallPushesReturnAddress : (withSp 16).sp.val = 16 ∧ (withSp 15).sp.val < 16 ∧ (0 : Nat) ≠ 15 := by
  decide

/-- The least sum whose next fetch raises. -/
theorem witness_IndexedJumpAddsV0 : (regs [(0, 1)] State.reset).fault = none ∧
    0xFFF ≤ ((regs [(0, 1)] State.reset).getV 0).toNat + (0xFFE : Addr).toNat := by decide

theorem witness_SkipsOnRegisterCompare : (1 : Nibble) ≠ 0 ∧ (0xF : Nibble) ≠ 0 := by decide

/-! ## Load and arithmetic -/

/-- The side conditions `x ≠ F`, `r ≠ x`, `r ≠ F` of the statements about 8xy4 to 8xy7, 8xyE and the logic
instructions, with a carry, a borrow and their absence. -/
theorem witness_Arithmetic : (1 : Reg) ≠ 0xF ∧ (0 : Reg) ≠ 1 ∧ (0 : Reg) ≠ 0xF ∧
    (let s := regs [(1, 255), (2, 1)] State.reset
     255 < (s.getV 1).toNat + (s.getV 2).toNat ∧ (s.getV 2).toNat ≤ (s.getV 1).toNat ∧
       ¬ (s.getV 1).toNat ≤ (s.getV 2).toNat ∧ ¬ 255 < (s.getV 2).toNat + (s.getV 2).toNat) := by decide

/-! ## The address register and memory -/

theorem witness_DecimalDigitsStored : Memory.wf (withI 0xFFE).mem = true ∧ 0xFFF < (withI 0xFFE).base + 2 ∧
    (withI 0xFFD).base + 2 ≤ 0xFFF ∧ 0xFFC < (withI 0xFFD).base ∧ (withI 0xFFC).base + 2 < 0xFFF := by decide

theorem witness_RegistersStored : Memory.wf (withI 0xFFF).mem = true ∧ 0xFFF < (withI 0xFFF).base + (1 : Reg).toNat ∧
    (withI 0xFFF).base + (0 : Reg).toNat ≤ 0xFFF ∧ (0 : Reg).toNat ≤ (0 : Reg).toNat ∧
    (withI 0xFF0).base + (0xF : Reg).toNat ≤ 0xFFF ∧ 0xFEF < (withI 0xFF0).base := by decide

theorem witness_RegistersLoaded : 0xFFF < (withI 0xFF1).base + (0xF : Reg).toNat ∧
    (withI 0xFF0).base + (0xF : Reg).toNat ≤ 0xFFF := by decide

theorem witness_StoreThenLoadRecoversRegisters :
    ∃ t, Memory.wf (withI 0xFF0).mem = true ∧ (withI 0xFF0).base + (0xF : Reg).toNat ≤ 0xFFF ∧
      exec (.storeRegs 0xF) (regs [(3, 7)] (withI 0xFF0)) = .next t ∧ (t.setV 3 0).mem = t.mem ∧ (t.setV 3 0).i = t.i ∧
      (3 : Reg).toNat ≤ (0xF : Reg).toNat := ⟨_, by decide, by decide, rfl, rfl, rfl, by decide⟩

/-- P5: Fx55 stores the next instruction, `LD V2, 0x77`, whole. -/
theorem witness_StoredWordIsFetchedNext_whole :
    let s := regs [(0, 0x62), (1, 0x77)] { atPc 0x206 with i := 0x208 }
    storeCount (.storeRegs 1) ≠ 0 ∧ raises s (.storeRegs 1) = none ∧ s.fault = none ∧ Memory.wf s.mem = true ∧
      s.pc.toNat + 3 ≤ 0xFFF ∧ decodeWord (byteAfter s (.storeRegs 1) 0x208 ++ byteAfter s (.storeRegs 1) 0x209) =
        .ok (.ldByte 2 0x77) := by decide
/-- Fx33 begins one byte late, at the last slot of memory: only the low byte of `LD V2, nn` is stored, the hundreds
digit of 156 (R143). The slot holds 0x6277 before. -/
theorem witness_StoredWordIsFetchedNext_low_byte :
    let s := regs [(3, 156)] (bytesAt 0xFFC [0x62, 0x77] { atPc 0xFFA with i := 0xFFD })
    storeCount (.ldB 3) ≠ 0 ∧ raises s (.ldB 3) = none ∧ s.fault = none ∧ Memory.wf s.mem = true ∧
      s.pc.toNat + 3 ≤ 0xFFF ∧ decodeWord (byteAfter s (.ldB 3) 0xFFC ++ byteAfter s (.ldB 3) 0xFFD) =
        .ok (.ldByte 2 1) := by decide
/-- Fx55 ends on the high byte of the next instruction, and its low byte stays. -/
theorem witness_StoredWordIsFetchedNext_high_byte :
    let s := regs [(1, 0x64)] (bytesAt 0xFFE [0x62, 0x77] { atPc 0xFFC with i := 0xFFD })
    storeCount (.storeRegs 1) ≠ 0 ∧ raises s (.storeRegs 1) = none ∧ s.fault = none ∧ Memory.wf s.mem = true ∧
      s.pc.toNat + 3 ≤ 0xFFF ∧ decodeWord (byteAfter s (.storeRegs 1) 0xFFE ++ byteAfter s (.storeRegs 1) 0xFFF) =
        .ok (.ldByte 4 0x77) := by decide

/-! ## Display -/

theorem witness_DrawTogglesCoveredPixels_range :
    (0 < (1 : Nibble).toNat ∧ 0xFFF < (withI 0x1000).base + (1 : Nibble).toNat - 1) ∧
    (0 : Nibble).toNat = 0 ∧ (withI 0xFFF).base + (1 : Nibble).toNat - 1 ≤ 0xFFF := by decide

/-- DSP9's sprite byte and pixel, wrapped to the last column and row: a covered pixel that is set, and pixels that
are not covered. -/
theorem witness_DrawTogglesCoveredPixels_covers :
    let s := lit [(63, 31)] (regs [(0, 0xFF), (1, 0xFF)] (bytesAt 0x300 [0x80] (withI 0x300)))
    spriteCovers s 0 1 1 63 31 ∧ s.pixel 63 31 = true ∧ ¬ spriteCovers s 0 1 1 0 31 := by
  refine ⟨⟨0, 0, by decide, by decide, by decide, by decide, by decide⟩, by decide, ?_⟩
  rintro ⟨row, col, h1, h2, h3, h4, -⟩
  obtain rfl : row = 0 := by simpa using h1
  revert h2 h3 h4
  revert col
  decide
theorem witness_DrawTogglesCoveredPixels_clear : ¬ ∃ px py, spriteCovers State.reset 0 1 0 px py ∧
    State.reset.pixel px py = true := by
  rintro ⟨px, py, ⟨row, col, h1, -⟩, -⟩
  exact absurd h1 (Nat.not_lt_zero _)

theorem witness_DrawingTwiceCancels :
    let s := bytesAt 0xFFF [0x80] (withI 0xFFF)
    (0 : Reg) ≠ 0xF ∧ (1 : Reg) ≠ 0xF ∧ s.base + (1 : Nibble).toNat - 1 ≤ 0xFFF ∧
      (∃ t, exec (.drw 0 1 1) s = .next t ∧ t.getV 0xF = 0) ∧ spriteCovers s 0 1 1 0 0 :=
  ⟨by decide, by decide, by decide, ⟨_, rfl, by decide⟩, 0, 0, by decide, by decide, by decide, by decide, by decide⟩

/-! ## Keypad and timers -/

theorem witness_KeySkipsReadTheLatch : 15 < ((regs [(4, 16)] State.reset).getV 4).toNat ∧
    (let s := pressed [15] (regs [(4, 15)] State.reset)
     s.key[(s.getV 4).toNat]? = some true) ∧
    (let s := regs [(4, 15)] State.reset
     s.key[(s.getV 4).toNat]? = some false) := by decide

theorem witness_KeyWaitSpinsOrDelivers : (∀ k, k < 16 → State.reset.key[k]? = some false) ∧
    (let s := pressed [15] State.reset
     s.key[15]? = some true ∧ ∀ j, j < 15 → s.key[j]? = some false) := by decide

theorem witness_SoundTimerIsNeverRead : (∃ t, exec (.ldVxDt 5) State.reset = .next t) ∧
    (∀ x, Instr.ldVxDt 5 ≠ .ldStVx x) ∧ ∃ x, Instr.ldStVx 5 = .ldStVx x := ⟨⟨_, rfl⟩, nofun, 5, rfl⟩

/-! ## Host operations -/

theorem witness_LoadCopiesPayloadOrFaults : Memory.wf State.reset.mem = true ∧
    3584 < (List.replicate 3585 (0 : Byte)).length ∧ (List.replicate 3584 (0xAB : Byte)).length ≤ 3584 ∧
    (List.replicate 3584 (0xAB : Byte))[3583]? = some 0xAB ∧
    0x200 + (List.replicate 3584 (0xAB : Byte)).length ≤ 0x1000 := by
  simp only [List.length_replicate, List.getElem?_replicate]
  decide

theorem witness_SetKeyWritesOneLatchOrFaults : 15 < 16 ∧ 15 ≤ 15 ∧ (14 : Nat) ≠ 15 := by decide

theorem witness_GetDisplayShowsEveryCell : 63 < 64 ∧ 31 < 32 := by decide

theorem witness_HostSeesTimersAndFaultCode : faultCode (some .oversizedRom) = faultCode (some .oversizedRom) := rfl

theorem witness_ResetLeavesStatedValues : (15 : Nat) < 16 ∧ (79 : Nat) < 80 ∧ 80 ≤ 80 := by decide

/-! ## Whole-machine rules -/

theorem witness_CallThenReturnResumes : (withSp 15).sp.val < 16 ∧ 14 ≠ (withSp 15).sp.val := by decide

theorem witness_FirstFaultIsKept : faulted.fault = some .stackUnderflow ∧
    HostOp.reset ∉ [HostOp.step, HostOp.setKey 16 true] ∧ HostOp.construct ∉ [HostOp.step, HostOp.setKey 16 true] := by
  decide

/-- A full stack of the highest return addresses, at the highest `pc` (R26, R102). -/
def fullStack : State := { State.reset with sp := 16, stack := Vector.replicate 16 0x1000, pc := 0x10FE }

theorem witness_Inv : fullStack.Inv := ⟨by decide, by decide, by decide⟩

theorem witness_StepKeepsInvariant : ∃ t, fullStack.Inv ∧ step fullStack = .next t := ⟨_, witness_Inv, rfl⟩

theorem witness_TraceKeepsInvariant : ∃ t, fullStack.Inv ∧
    runTrace [.load [0x60, 0x05], .step, .tickTimers] fullStack = .next t := ⟨_, witness_Inv, rfl⟩

end Sys2Proof.Tests
end

section
/-! Proofs for the family of the state: where `pc` goes (spec/10_state.md R25) and what reset leaves (R39). -/

namespace Sys2Proof.Machine

/-! ## The values of `pc` as natural numbers -/

@[simp] theorem toNat_addrWord (nnn : Addr) : (addrWord nnn).toNat = nnn.toNat :=
  BitVec.toNat_setWidth_of_le (by decide)

@[simp] theorem toNat_byteWord (b : Byte) : (byteWord b).toNat = b.toNat :=
  BitVec.toNat_setWidth_of_le (by decide)

/-- The target of Bnnn does not wrap (R26(c)). -/
theorem toNat_byteWord_add_addrWord (b : Byte) (nnn : Addr) :
    (byteWord b + addrWord nnn).toNat = b.toNat + nnn.toNat := by
  have hb := b.isLt
  have hn := nnn.isLt
  rw [BitVec.toNat_add_of_lt (by simp; omega)]
  simp

/-- The advance past an instruction that was fetched does not wrap (R26(c)). -/
theorem State.toNat_advance_pc {s : State} (h : s.pc.toNat ≤ 0xFFE) : s.advance.pc.toNat = s.pc.toNat + 2 := by
  rw [State.advance_pc]
  bv_omega

/-- Nor does the skip of the instruction after it (R108). -/
theorem State.toNat_skipIf_advance_pc {s : State} (c : Bool) (h : s.pc.toNat ≤ 0xFFE) :
    (s.advance.skipIf c).pc.toNat = if c then s.pc.toNat + 4 else s.pc.toNat + 2 := by
  cases c
  · exact State.toNat_advance_pc h
  · simp only [State.skipIf_pc, State.advance_pc, if_true]
    bv_omega

/-! ## Raising or going on -/

/-- A state that an error condition has been taken in is faulted (R190). -/
theorem State.raise_fault_ne_none (c : Cause) (s : State) : (s.raise c).fault ≠ none := by simp

/-- A word is fetched only from an address of which both bytes are in memory (R91). -/
theorem pc_le_of_fetch?_eq_some {s : State} {w : Word} (h : fetch? s = some w) : s.pc.toNat ≤ 0xFFE := by
  rcases fetch?_cases s with ⟨hpc, -⟩ | ⟨-, hnone⟩
  · exact hpc
  · cases h.symm.trans hnone

/-- Every instruction either takes the error condition of its one check, or leaves the latch alone and `pc` where R25
says. -/
theorem exec_raises_or_nextPc (i : Instr) (s : State) :
    (∃ c, raises s i = some c ∧ exec i s = .next (s.raise c)) ∨
      (raises s i = none ∧ ∃ t, exec i s = .next t ∧ t.fault = s.fault ∧
        (s.pc.toNat ≤ 0xFFE → t.pc.toNat = nextPc s i)) := by
  cases i with
  | jp nnn => exact .inr ⟨rfl, _, rfl, rfl, fun _ => toNat_addrWord nnn⟩
  | jpV0 nnn => exact .inr ⟨rfl, _, rfl, rfl, fun _ => toNat_byteWord_add_addrWord _ nnn⟩
  | call nnn =>
    rcases exec_call_cases nnn s with ⟨hsp, h⟩ | ⟨hsp, t, h, -, -, -, hpc, ht⟩
    · exact .inl ⟨_, if_pos hsp, h⟩
    · exact .inr ⟨if_neg (by omega), t, h, by rw [ht], fun _ => by rw [hpc]; exact toNat_addrWord nnn⟩
  | ret =>
    rcases exec_ret_cases s with ⟨hsp, h⟩ | ⟨hsp, t, h, -, hslot, ht⟩
    · exact .inl ⟨_, if_pos hsp, h⟩
    · exact .inr ⟨if_neg (by omega), t, h, by rw [ht], fun _ => by simp [nextPc, hslot]⟩
  | seByte _ _ | sneByte _ _ | seReg _ _ | sneReg _ _ =>
    exact .inr ⟨rfl, _, rfl, State.skipIf_fault _ _, State.toNat_skipIf_advance_pc _⟩
  | skp x =>
    rcases exec_keySkip_cases x s with ⟨hx, h, -⟩ | ⟨hx, h, -⟩
    · exact .inr ⟨if_neg (by omega), _, h, State.skipIf_fault _ _, State.toNat_skipIf_advance_pc _⟩
    · exact .inl ⟨_, if_pos hx, h⟩
  | sknp x =>
    rcases exec_keySkip_cases x s with ⟨hx, -, h⟩ | ⟨hx, -, h⟩
    · exact .inr ⟨if_neg (by omega), _, h, State.skipIf_fault _ _, State.toNat_skipIf_advance_pc _⟩
    · exact .inl ⟨_, if_pos hx, h⟩
  | ldVxK x =>
    rcases exec_ldVxK_cases x s with ⟨hup, -, h⟩ | ⟨k, hk, hdown, -, -, h⟩
    · have hany : ¬(List.range 16).any s.keyDown = true := by simpa using hup
      exact .inr ⟨rfl, _, h, rfl, fun _ => (if_neg hany).symm⟩
    · have hany : (List.range 16).any s.keyDown = true := List.any_eq_true.2 ⟨k, List.mem_range.2 hk, hdown⟩
      exact .inr ⟨rfl, _, h, rfl, fun hpc => (State.toNat_advance_pc hpc).trans (if_pos hany).symm⟩
  | drw x y n =>
    rcases exec_drw_cases x y n s with ⟨hr, h⟩ | ⟨hr, h⟩
    · exact .inr ⟨if_neg (by simp only [accessCount]; omega), _, h, rfl, State.toNat_advance_pc⟩
    · exact .inl ⟨_, if_pos hr, h⟩
  | ldB x =>
    rcases exec_ldB_cases x s with ⟨hr, h⟩ | ⟨hr, h⟩
    · exact .inr ⟨if_neg (by simp only [accessCount]; omega), _, h, rfl, State.toNat_advance_pc⟩
    · exact .inl ⟨_, if_pos (by simp only [accessCount]; omega), h⟩
  | storeRegs x =>
    rcases exec_storeRegs_cases x s with ⟨hr, h⟩ | ⟨hr, h⟩
    · exact .inr ⟨if_neg (by simp only [accessCount]; omega), _, h, rfl, State.toNat_advance_pc⟩
    · exact .inl ⟨_, if_pos (by simp only [accessCount]; omega), h⟩
  | loadRegs x =>
    rcases exec_loadRegs_cases x s with ⟨hr, h⟩ | ⟨hr, h⟩
    · exact .inr ⟨if_neg (by simp only [accessCount]; omega), _, h, rfl, State.toNat_advance_pc⟩
    · exact .inl ⟨_, if_pos (by simp only [accessCount]; omega), h⟩
  | cls | ldByte _ _ | addByte _ _ | ldReg _ _ | orReg _ _ | andReg _ _ | xorReg _ _ | addReg _ _ | subReg _ _
  | shr _ _ | subnReg _ _ | shl _ _ | ldI _ | rnd _ _ | ldVxDt _ | ldDtVx _ | ldStVx _ | addI _ | ldF _ =>
    exact .inr ⟨rfl, _, rfl, rfl, State.toNat_advance_pc⟩

/-- A call that raises nothing leaves the address after it in the slot that was free (R102). -/
theorem exec_call_pushes {nnn : Addr} {s t : State} (h : exec (.call nnn) s = .next t) (hf : t.fault = none) :
    t.stack[s.sp.val]? = some (s.pc + 2) := by
  rcases exec_call_cases nnn s with ⟨-, h'⟩ | ⟨-, u, h', hslot, -⟩
  · cases h.symm.trans h'
    exact absurd hf (State.raise_fault_ne_none _ s)
  · cases h.symm.trans h'
    exact hslot

/-- A step of a running core that faults leaves `pc` at the address it was to fetch from (R94). -/
theorem step_pc_of_faults {s t : State} (hs : s.fault = none) (h : step s = .next t) (ht : t.fault ≠ none) :
    t.pc = s.pc := by
  rcases step_cases s with ⟨hf, -⟩ | ⟨-, ⟨-, h'⟩ | ⟨w, -, ⟨e, -, h'⟩ | ⟨i, -, h'⟩⟩⟩
  · exact absurd hs hf
  · cases h.symm.trans h'; rfl
  · cases h.symm.trans h'; rfl
  · rcases exec_raises_or_nextPc i s with ⟨c, -, hi⟩ | ⟨-, u, hi, hu, -⟩
    · cases h.symm.trans (h'.trans hi); rfl
    · cases h.symm.trans (h'.trans hi)
      exact absurd (hu.trans hs) ht

/-- A step of a running core that fetched the word of an instruction is that instruction (R93). -/
theorem step_eq_exec {s : State} {w : Word} {i : Instr} (hs : s.fault = none) (hw : fetch? s = some w)
    (hi : decodeWord w = .ok i) : step s = exec i s := by
  simp [step_of_fault_none hs, runCycle, hw, hi]

/-- Settles O10: a step is a failed fetch, an illegal word, or one instruction, and `exec_raises_or_nextPc` says of every
instruction where it leaves `pc`. -/
theorem eachStepLeavesPcAsStated : Obligations.EachStepLeavesPcAsStated := by
  refine ⟨fun s t => step_pc_of_faults, fun s t w i hs hw hi h ht => ?_⟩
  rw [step_eq_exec hs hw hi] at h
  constructor
  · rcases exec_raises_or_nextPc i s with ⟨c, -, h'⟩ | ⟨-, u, h', -, hpc⟩
    · cases h.symm.trans h'
      exact absurd ht (State.raise_fault_ne_none c s)
    · cases h.symm.trans h'
      exact hpc (pc_le_of_fetch?_eq_some hw)
  · rintro ⟨nnn, rfl⟩
    exact exec_call_pushes h ht

/-! ## Reset -/

/-- Memory with no listed cell reads FONT at 0x000 to 0x04F (R39). -/
theorem Memory.read_nil_font {a : Nat} (h : a < 80) : some (Memory.read [] a) = font[a]? := by
  have hlen : a < font.length := h
  simp [Memory.read, Memory.find?, resetByte, h, hlen]

/-- Memory with no listed cell reads zero above FONT (R39). -/
theorem Memory.read_nil_zero {a : Nat} (h : 80 ≤ a) : Memory.read [] a = 0 :=
  if_neg (Nat.not_lt.2 h)

/-- After a reset every general register is zero (R39). -/
@[simp] theorem State.getV_resetOp (s : State) (r : Reg) : (resetOp s).getV r = 0 := State.getV_reset r

/-- After a reset no pixel is set, not even outside the display (R39). -/
@[simp] theorem State.pixel_resetOp (s : State) (px py : Nat) : (resetOp s).pixel px py = false := by
  by_cases h : py < 32 <;> simp [State.pixel, h]

/-- Settles O54: both operations answer `resetOp s`, whose fields are those of `State.reset` but for the draw counter. -/
theorem resetLeavesStatedValues : Obligations.ResetLeavesStatedValues := by
  intro s
  refine ⟨resetOp s, rfl, rfl, State.getV_resetOp s, rfl, rfl, rfl, fun j hj => ?_, rfl, rfl, fun k hk => ?_,
    State.pixel_resetOp s, fun a => Memory.read_nil_font, fun a => Memory.read_nil_zero, rfl, rfl⟩
  · simp [hj]
  · simp [hk]

end Sys2Proof.Machine
end

section
/-! Proofs for the family of the encoding: which words are illegal, by the opcode map (spec/30_encoding.md R76, R77) and
by the decoder (R74), and what a step that fetches one does (R75). -/

namespace Sys2Proof

/-! ## Masks and fields: what a row of the map asks of the fields of a word -/

/-- The mask of format FIXED keeps the whole word; its first digit is said apart, as in the other formats. -/
theorem and_FFFF_eq_iff (w p : Word) : w &&& 0xFFFF#16 = p ↔ fieldOp w = fieldOp p ∧ w = p := by
  rw [show w &&& 0xFFFF#16 = w from BitVec.and_allOnes]
  exact ⟨fun h => ⟨congrArg fieldOp h, h⟩, And.right⟩

theorem and_F000_eq_iff (w p : Word) : w &&& 0xF000#16 = p ↔ fieldOp w = fieldOp p ∧ fieldNNN p = 0#12 := by
  rw [and_F000]
  constructor
  · rintro rfl; simp
  · rintro ⟨hop, hnnn⟩; rw [hop, ← hnnn, word_eq_opNNN]

theorem and_F00F_eq_iff (w p : Word) : w &&& 0xF00F#16 = p ↔
    (fieldOp w = fieldOp p ∧ fieldN w = fieldN p) ∧ fieldX p = 0#4 ∧ fieldY p = 0#4 := by
  rw [and_F00F]
  constructor
  · rintro rfl; simp
  · rintro ⟨⟨hop, hn⟩, hx, hy⟩
    have hp := word_eq_digits p
    rwa [hx, hy, ← hop, ← hn] at hp

theorem and_F0FF_eq_iff (w p : Word) : w &&& 0xF0FF#16 = p ↔
    (fieldOp w = fieldOp p ∧ fieldNN w = fieldNN p) ∧ fieldX p = 0#4 := by
  rw [and_F0FF]
  constructor
  · rintro rfl; simp
  · rintro ⟨⟨hop, hnn⟩, hx⟩; rw [hop, hnn, ← hx, word_eq_opXNN]

/-- The map read by fields, in the order of its rows: the first digit, and what it asks of the rest of the word. -/
theorem legalWord_iff_fields (w : Word) : legalWord w = true ↔
    fieldOp w = 0x0#4 ∧ w ∈ [0x00E0#16, 0x00EE#16] ∨
    fieldOp w ∈ [0x1#4, 0x2#4, 0x3#4, 0x4#4] ∨
    fieldOp w = 0x5#4 ∧ fieldN w = 0#4 ∨
    fieldOp w ∈ [0x6#4, 0x7#4] ∨
    fieldOp w = 0x8#4 ∧ fieldN w ∈ [0x0#4, 0x1#4, 0x2#4, 0x3#4, 0x4#4, 0x5#4, 0x6#4, 0x7#4, 0xE#4] ∨
    fieldOp w = 0x9#4 ∧ fieldN w = 0#4 ∨
    fieldOp w ∈ [0xA#4, 0xB#4, 0xC#4, 0xD#4] ∨
    fieldOp w = 0xE#4 ∧ fieldNN w ∈ [0x9E#8, 0xA1#8] ∨
    fieldOp w = 0xF#4 ∧
      fieldNN w ∈ [0x07#8, 0x0A#8, 0x15#8, 0x18#8, 0x1E#8, 0x29#8, 0x33#8, 0x55#8, 0x65#8] := by
  simp [legalWord, opcodeTable, opcodeRowsLow, opcodeRowsAlu, opcodeRowsHigh, fitsRow, and_FFFF_eq_iff,
    and_F000_eq_iff, and_F00F_eq_iff, and_F0FF_eq_iff, fieldOp, fieldX, fieldY, fieldN, fieldNN, fieldNNN,
    and_or_left, or_assoc]

/-! ## The decoder: which words it answers with an error -/

theorem decodeZero_eq_error_iff (w : Word) :
    (∃ e, decodeZero w = .error e) ↔ w ∉ [0x00E0#16, 0x00EE#16] := by
  unfold decodeZero
  split
  · simp [*]
  · split <;> simp [*]

theorem decodeEight_eq_error_iff (x y : Reg) (n : Nibble) : (∃ e, decodeEight x y n = .error e) ↔
    n ∉ [0x0#4, 0x1#4, 0x2#4, 0x3#4, 0x4#4, 0x5#4, 0x6#4, 0x7#4, 0xE#4] := by
  unfold decodeEight
  split
  case h_10 => simp_all
  all_goals simp

theorem decodeE_eq_error_iff (x : Reg) (nn : Byte) :
    (∃ e, decodeE x nn = .error e) ↔ nn ∉ [0x9E#8, 0xA1#8] := by
  unfold decodeE
  split
  case h_3 => simp_all
  all_goals simp

theorem decodeF_eq_error_iff (x : Reg) (nn : Byte) : (∃ e, decodeF x nn = .error e) ↔
    nn ∉ [0x07#8, 0x0A#8, 0x15#8, 0x18#8, 0x1E#8, 0x29#8, 0x33#8, 0x55#8, 0x65#8] := by
  unfold decodeF
  split
  case h_10 => simp_all
  all_goals simp

/-- The decoder and the map call the same words illegal: the first digit selects one group of the decoder, and there the
rows that begin with that digit ask for the same rest of the word (R77). -/
theorem legalWord_eq_false_iff_decodeWord_eq_error (w : Word) :
    legalWord w = false ↔ ∃ e, decodeWord w = .error e := by
  rw [← Bool.not_eq_true, legalWord_iff_fields]
  unfold decodeWord
  split
  case h_1 hop => simp [hop, decodeZero_eq_error_iff]
  case h_6 hop | h_10 hop => by_cases hn : fieldN w = 0#4 <;> simp [hop, hn]
  case h_9 hop => simp [hop, decodeEight_eq_error_iff]
  case h_15 hop => simp [hop, decodeE_eq_error_iff]
  case h_16 =>
    have hop : fieldOp w = 0xF#4 := by
      simp only [imp_false] at *
      bv_omega
    simp [hop, decodeF_eq_error_iff]
  all_goals
    rename_i hop
    simp [hop]

end Sys2Proof

namespace Sys2Proof.Machine

/-- A step of a running core that fetched an illegal word sets the latch and nothing else (R75, R93). -/
theorem step_eq_unimplementedOpcode {s : State} {w : Word} {e : Illegal} (hs : s.fault = none)
    (hw : fetch? s = some w) (he : decodeWord w = .error e) :
    step s = .next { s with fault := some .unimplementedOpcode } := by
  simp [step_of_fault_none hs, runCycle, hw, he, takeFault_eq, hs]

/-- Settles O6: the map and the decoder call the same words illegal, and the cycle takes UnimplementedOpcode on a word
that the decoder refuses. -/
theorem illegalWordRaisesUnimplementedOpcode : Obligations.IllegalWordRaisesUnimplementedOpcode := by
  refine ⟨legalWord_eq_false_iff_decodeWord_eq_error, fun s w hs hw hillegal => ?_⟩
  obtain ⟨e, he⟩ := (legalWord_eq_false_iff_decodeWord_eq_error w).1 hillegal
  exact step_eq_unimplementedOpcode hs hw he

end Sys2Proof.Machine
end

section
/-! Proofs for the family of the step: what the fetch reads and what the step makes of it (spec/40_step_cycle.md R91,
R93, R94), and the step and the other operations on a faulted core (R95). -/

namespace Sys2Proof.Machine

/-! ## The fetch -/

/-- A fetch of which both bytes are in memory reads them big end first, at any parity of `pc` (R91). -/
theorem fetch?_eq_some_of_le {s : State} (h : s.pc.toNat ≤ 0xFFE) :
    fetch? s = some (Memory.read s.mem s.pc.toNat ++ Memory.read s.mem (s.pc.toNat + 1)) := by
  rcases fetch?_cases s with ⟨-, hw⟩ | ⟨hpc, -⟩
  · exact hw
  · omega

/-- A fetch whose second byte lies above the last address reads nothing (R91). -/
theorem fetch?_eq_none_of_lt {s : State} (h : 0xFFE < s.pc.toNat) : fetch? s = none := by
  rcases fetch?_cases s with ⟨hpc, -⟩ | ⟨-, hnone⟩
  · omega
  · exact hnone

/-- A step of a running core whose fetch reads nothing sets the latch and nothing else (R91, R94). -/
theorem step_eq_addressOutOfRange {s : State} (hs : s.fault = none) (hnone : fetch? s = none) :
    step s = .next { s with fault := some .addressOutOfRange } := by
  simp [step_of_fault_none hs, runCycle, hnone, takeFault_eq, hs]

/-- Settles O5: the bound of the fetch decides whether a word is read, and the decoder decides what the step makes of
that word. -/
theorem fetchReadsTwoBytesOrFaults : Obligations.FetchReadsTwoBytesOrFaults := by
  refine fun s hs => ⟨fun hpc => ?_, fun hpc => step_eq_addressOutOfRange hs (fetch?_eq_none_of_lt (by omega))⟩
  have hw := fetch?_eq_some_of_le (s := s) (by omega)
  refine ⟨hw, ?_⟩
  split
  next i hi => exact step_eq_exec hs hw hi
  next e he => exact step_eq_unimplementedOpcode hs hw he

/-! ## A faulted core -/

/-- A step of a faulted core changes nothing (R95). -/
theorem step_of_fault_ne_none {s : State} (h : s.fault ≠ none) : step s = .next s := by
  rcases step_cases s with ⟨-, hstep⟩ | ⟨hnone, -⟩
  · exact hstep
  · exact absurd hnone h

/-- A further error condition does not replace the cause in the latch (R190). -/
theorem State.raise_fault_of_eq_some {s : State} {c : Cause} (h : s.fault = some c) (d : Cause) :
    (s.raise d).fault = some c := by
  simp [h]

/-- Loading into a faulted core keeps the cause, whatever the length of the payload (R171, R190). -/
theorem loadRom_fault_of_eq_some {s : State} {c : Cause} (h : s.fault = some c) (bytes : List Byte) :
    (loadRom bytes s).fault = some c := by
  unfold loadRom
  split
  · exact State.raise_fault_of_eq_some h _
  · exact h

/-- Writing a key of a faulted core keeps the cause, whatever the index (R172, R190). -/
theorem setKey_fault_of_eq_some {s : State} {c : Cause} (h : s.fault = some c) (index : Nat) (pressed : Bool) :
    (setKey index pressed s).fault = some c := by
  unfold setKey
  split
  · exact State.raise_fault_of_eq_some h _
  · exact h

/-- Every operation but reset and construct leaves a faulted core faulted, with the cause it had (R95, R190). -/
theorem applyOp_keeps_cause {s : State} {c : Cause} (h : s.fault = some c) {op : HostOp} (hr : op ≠ .reset)
    (hc : op ≠ .construct) : ∃ t, applyOp op s = .next t ∧ t.fault = some c := by
  cases op with
  | construct => exact absurd rfl hc
  | reset => exact absurd rfl hr
  | load bytes => exact ⟨_, rfl, loadRom_fault_of_eq_some h bytes⟩
  | step => exact ⟨s, step_of_fault_ne_none (by simp [h]), h⟩
  | tickTimers => exact ⟨_, rfl, h⟩
  | getDisplay => exact ⟨_, rfl, h⟩
  | setKey index pressed => exact ⟨_, rfl, setKey_fault_of_eq_some h index pressed⟩

/-- Settles O7: the cause in the latch holds the step back, every other operation keeps it, and `resetOp`, which reset
and construct both answer, clears it. -/
theorem faultedCoreStepChangesNothing : Obligations.FaultedCoreStepChangesNothing := by
  intro s hs
  obtain ⟨c, hcause⟩ := Option.ne_none_iff_exists'.1 hs
  refine ⟨step_of_fault_ne_none hs, fun op hr hc => ?_, resetOp s, resetOp s, rfl, State.resetOp_fault s, rfl,
    State.resetOp_fault s⟩
  obtain ⟨t, happly, ht⟩ := applyOp_keeps_cause hcause hr hc
  exact ⟨t, happly, by simp [ht]⟩

end Sys2Proof.Machine
end

section
/-! Proofs for the family of control transfer (spec/41_control_flow.md): that each word decodes to its instruction, and
what 00EE, 1nnn, 2nnn, Bnnn and the four compare skips leave. -/

namespace Sys2Proof

/-! ## Decoding -/

/-- The decoder gives back every instruction from its word: the first digit selects the group, and the fields of the
word's layout are the operands (R71, R74). -/
theorem decodeWord_encode (i : Instr) : decodeWord (encode i) = .ok i := by
  cases i with
  | cls | ret => rfl
  | jp _ | call _ | ldI _ | jpV0 _ => simp [encode, decodeWord]
  | seByte _ _ | sneByte _ _ | ldByte _ _ | addByte _ _ | rnd _ _ => simp [encode, decodeWord]
  | seReg _ _ | sneReg _ _ | drw _ _ _ => simp [encode, decodeWord]
  | ldReg _ _ | orReg _ _ | andReg _ _ | xorReg _ _ | addReg _ _ | subReg _ _ | shr _ _ | subnReg _ _ | shl _ _ =>
    simp [encode, decodeWord, decodeEight]
  | skp _ | sknp _ => simp [encode, decodeWord, decodeE]
  | ldVxDt _ | ldVxK _ | ldDtVx _ | ldStVx _ | addI _ | ldF _ | ldB _ | storeRegs _ | loadRegs _ =>
    simp [encode, decodeWord, decodeF]

/-- A word 5xyN with N not 0 is illegal (R77(b), R106). -/
theorem decodeWord_five_eq_error (x y : Nibble) {n : Nibble} (h : n ≠ 0) :
    decodeWord (0x5#4 ++ x ++ y ++ n) = .error .fiveGroup := by
  simpa [decodeWord] using h

/-- A word 9xyN with N not 0 is illegal (R77(d), R107). -/
theorem decodeWord_nine_eq_error (x y : Nibble) {n : Nibble} (h : n ≠ 0) :
    decodeWord (0x9#4 ++ x ++ y ++ n) = .error .nineGroup := by
  simpa [decodeWord] using h

/-- Settles O3: each word is the encoding of its instruction, and the two illegal ones are computed. -/
theorem exampleWordsDecode : Obligations.ExampleWordsDecode :=
  ⟨decodeWord_encode .cls, decodeWord_encode (.call 0x20A), decodeWord_encode (.seByte 3 0x2A),
    decodeWord_encode (.shr 1 2), decodeWord_encode (.ldI 0x300), decodeWord_encode (.drw 0 1 2),
    decodeWord_encode (.skp 4), decodeWord_encode (.ldB 2), by decide, by decide⟩

end Sys2Proof

namespace Sys2Proof.Machine

/-! ## Jumps, calls and returns -/

/-- Settles O18: the two ends of 00EE exclude each other by `SP`. -/
theorem returnPopsIntoPc : Obligations.ReturnPopsIntoPc := by
  refine ⟨decodeWord_encode .ret, fun s => ?_⟩
  rcases exec_ret_cases s with ⟨hempty, hraise⟩ | ⟨hheld, hpop⟩
  · exact ⟨fun _ => hraise, fun hheld => by omega⟩
  · exact ⟨fun hempty => by omega, fun _ => hpop⟩

/-- Settles O19: the target is `nnn` zero-extended. -/
theorem jumpSetsPc : Obligations.JumpSetsPc :=
  ⟨fun nnn => decodeWord_encode (.jp nnn), fun nnn _ => ⟨_, rfl, toNat_addrWord nnn, rfl⟩⟩

/-- Settles O20: the two ends of 2nnn exclude each other by `SP`. -/
theorem callPushesReturnAddress : Obligations.CallPushesReturnAddress := by
  refine ⟨fun nnn => decodeWord_encode (.call nnn), fun nnn s => ?_⟩
  rcases exec_call_cases nnn s with ⟨hfull, hraise⟩ | ⟨hfree, t, hcall, hslot, hkept, hsp, hpc, hframe⟩
  · exact ⟨fun _ => hraise, fun hfree => by omega⟩
  · have htarget : t.pc.toNat = nnn.toNat := by rw [hpc, toNat_addrWord]
    exact ⟨fun hfull => by omega, fun _ => ⟨t, hcall, hslot, hkept, hsp, htarget, hframe⟩⟩

/-- Settles O21: the sum fits in sixteen bits, and from 0xFFF on the next fetch reads nothing. -/
theorem indexedJumpAddsV0 : Obligations.IndexedJumpAddsV0 := by
  refine ⟨fun nnn => decodeWord_encode (.jpV0 nnn), fun nnn s => ?_⟩
  have hsum := toNat_byteWord_add_addrWord (s.getV 0) nnn
  refine ⟨{ s with pc := byteWord (s.getV 0) + addrWord nnn }, rfl, hsum, rfl, fun hs hhigh => ?_⟩
  exact step_eq_addressOutOfRange hs (fetch?_eq_none_of_lt (hsum ▸ hhigh))

/-! ## The compare skips -/

/-- The advance and then the skip, where the condition holds, change `pc` alone (R108). -/
theorem State.skipIf_advance (s : State) (c : Bool) :
    s.advance.skipIf c = { s with pc := if c then s.pc + 4 else s.pc + 2 } := by
  cases c
  · rfl
  · simp [State.skipIf, State.advance, BitVec.add_assoc]

/-- The skip on equality (R104, R106). -/
theorem State.skipIf_advance_beq (s : State) (a b : Byte) :
    s.advance.skipIf (a == b) = { s with pc := if a = b then s.pc + 4 else s.pc + 2 } := by
  simp [State.skipIf_advance]

/-- The skip on difference (R105, R107). -/
theorem State.skipIf_advance_bne (s : State) (a b : Byte) :
    s.advance.skipIf (a != b) = { s with pc := if a = b then s.pc + 2 else s.pc + 4 } := by
  simp [State.skipIf_advance]

/-- Settles O22: 3xnn is the skip on equality of `V[x]` and `nn`, 4xnn the skip on their difference. -/
theorem skipsOnByteCompare : Obligations.SkipsOnByteCompare :=
  ⟨fun x nn => ⟨decodeWord_encode (.seByte x nn), decodeWord_encode (.sneByte x nn)⟩,
    fun x nn s => ⟨congrArg Host.Outcome.next (s.skipIf_advance_beq (s.getV x) nn),
      congrArg Host.Outcome.next (s.skipIf_advance_bne (s.getV x) nn)⟩⟩

/-- Settles O23: 5xy0 is the skip on equality of `V[x]` and `V[y]`, 9xy0 the skip on their difference. -/
theorem skipsOnRegisterCompare : Obligations.SkipsOnRegisterCompare :=
  ⟨fun x y => ⟨decodeWord_encode (.seReg x y), decodeWord_encode (.sneReg x y)⟩,
    fun x y _ h => ⟨decodeWord_five_eq_error x y h, decodeWord_nine_eq_error x y h⟩,
    fun x y s => ⟨congrArg Host.Outcome.next (s.skipIf_advance_beq (s.getV x) (s.getV y)),
      congrArg Host.Outcome.next (s.skipIf_advance_bne (s.getV x) (s.getV y))⟩⟩

end Sys2Proof.Machine
end

section
/-! Proofs for the family of loads and arithmetic (spec/42_load_alu.md): the results and flags of Machine/Flags.lean as
natural numbers, what one register write and two leave, and the instructions 6xnn to 8xyE. -/

namespace Sys2Proof.Machine

/-! ## Results and flags as natural numbers -/

@[simp] theorem toNat_flagByte (c : Bool) : (flagByte c).toNat = if c then 1 else 0 := by
  cases c <;> rfl

@[simp] theorem toNat_addByte (a b : Byte) : (addByte a b).toNat = (a.toNat + b.toNat) % 256 :=
  BitVec.toNat_ofNat _ 8

/-- A negative difference is stored 256 higher (R132(c)). -/
@[simp] theorem toNat_subByte (a b : Byte) : (subByte a b).toNat = (a.toNat + 256 - b.toNat) % 256 := by
  have hb := b.isLt
  rw [subByte, BitVec.toNat_ofInt]
  omega

@[simp] theorem toNat_shrByte (a : Byte) : (shrByte a).toNat = a.toNat / 2 := by
  have ha := a.isLt
  rw [shrByte, BitVec.toNat_ofNat, Nat.mod_eq_of_lt (by omega)]

@[simp] theorem toNat_shlByte (a : Byte) : (shlByte a).toNat = a.toNat * 2 % 256 :=
  BitVec.toNat_ofNat _ 8

/-- The carry as VF shows it (R126). -/
theorem toNat_flagByte_addCarry (a b : Byte) :
    (flagByte (addCarry a b)).toNat = if 255 < a.toNat + b.toNat then 1 else 0 := by
  simp [addCarry]

/-- No borrow as VF shows it (R127, R129). -/
theorem toNat_flagByte_subNoBorrow (a b : Byte) :
    (flagByte (subNoBorrow a b)).toNat = if b.toNat ≤ a.toNat then 1 else 0 := by
  simp [subNoBorrow]

/-- Bit 0 is the remainder that halving drops (R128). -/
theorem toNat_flagByte_shrOut (a : Byte) : (flagByte (shrOut a)).toNat = a.toNat % 2 := by
  rw [toNat_flagByte, shrOut, BitVec.getLsbD, Nat.testBit_eq_decide_div_mod_eq]
  rcases Nat.mod_two_eq_zero_or_one a.toNat with h | h <;> simp [h]

/-- Bit 7 is set from 128 on (R130). -/
theorem toNat_flagByte_shlOut (a : Byte) : (flagByte (shlOut a)).toNat = a.toNat / 128 := by
  have ha := a.isLt
  rw [toNat_flagByte, shlOut, BitVec.getLsbD, Nat.testBit_eq_decide_div_mod_eq]
  rcases Nat.lt_or_ge a.toNat 128 with h | h
  · simp [Nat.div_eq_of_lt h]
  · simp [show a.toNat / 128 = 1 by omega]

/-! ## What one register write and two leave -/

theorem State.getV_setV_self (s : State) (x : Reg) (b : Byte) : (s.setV x b).getV x = b := by simp

theorem State.getV_setV_of_ne (s : State) {x r : Reg} (b : Byte) (h : r ≠ x) : (s.setV x b).getV r = s.getV r := by
  simp [h]

/-- An instruction that advances and writes one register: every register, and nothing else changed. -/
theorem exec_of_one_write {i : Instr} {s : State} {x : Reg} {b : Byte} (h : exec i s = .next (s.advance.setV x b)) :
    ∃ t, exec i s = .next t ∧ (∀ r, t.getV r = if r = x then b else s.getV r) ∧
      t = { s with v := t.v, pc := s.pc + 2 } :=
  ⟨_, h, fun r => State.getV_setV s.advance x r b, rfl⟩

/-- An instruction that advances and writes two registers, perhaps the same: the last write is what stays (R133). -/
theorem exec_of_two_writes {i : Instr} {s : State} {x₁ x₂ : Reg} {b₁ b₂ : Byte} {n₁ n₂ : Nat}
    (h : exec i s = .next ((s.advance.setV x₁ b₁).setV x₂ b₂)) (h₁ : b₁.toNat = n₁) (h₂ : b₂.toNat = n₂) :
    ∃ t, exec i s = .next t ∧ (t.getV x₂).toNat = n₂ ∧ (x₁ ≠ x₂ → (t.getV x₁).toNat = n₁) ∧
      (∀ r, r ≠ x₁ → r ≠ x₂ → t.getV r = s.getV r) ∧ t = { s with v := t.v, pc := s.pc + 2 } := by
  refine ⟨_, h, ?_, fun hne => ?_, fun r hr₁ hr₂ => ?_, rfl⟩
  · rw [State.getV_setV_self, h₂]
  · rw [State.getV_setV_of_ne _ b₂ hne, State.getV_setV_self, h₁]
  · rw [State.getV_setV_of_ne _ b₂ hr₂, State.getV_setV_of_ne _ b₁ hr₁, State.getV_advance]

/-- The shifts write the flag first, so that the shifted value is in `V[x]` for every `x` (R128, R130, R133). -/
theorem exec_of_flag_then_result {i : Instr} {s : State} {x : Reg} {flag b : Byte} {m n : Nat}
    (h : exec i s = .next ((s.advance.setV 0xF flag).setV x b)) (hb : b.toNat = m) (hflag : flag.toNat = n) :
    ∃ t, exec i s = .next t ∧ (t.getV x).toNat = m ∧ (x ≠ 0xF → (t.getV 0xF).toNat = n) ∧
      (∀ r, r ≠ x → r ≠ 0xF → t.getV r = s.getV r) ∧ t = { s with v := t.v, pc := s.pc + 2 } := by
  obtain ⟨t, ht, hresult, hvf, hkept, hframe⟩ := exec_of_two_writes h hflag hb
  exact ⟨t, ht, hresult, fun hx => hvf hx.symm, fun r hx hf => hkept r hf hx, hframe⟩

/-! ## Loads, 7xnn and the logic instructions -/

/-- Settles O24: the byte is the one register write. -/
theorem loadByteSetsRegister : Obligations.LoadByteSetsRegister :=
  ⟨fun x nn => decodeWord_encode (.ldByte x nn), fun _ _ _ => exec_of_one_write rfl⟩

/-- Settles O25: the sum modulo 256 is the one register write. -/
theorem addByteWrapsWithoutFlag : Obligations.AddByteWrapsWithoutFlag := by
  refine ⟨fun x nn => decodeWord_encode (.addByte x nn), fun x nn s => ?_⟩
  obtain ⟨t, ht, hregs, hframe⟩ := exec_of_one_write (i := .addByte x nn) (s := s) rfl
  exact ⟨t, ht, fun r => by rw [hregs, apply_ite BitVec.toNat, toNat_addByte], hframe⟩

/-- Settles O26: the copy of `V[y]` is the one register write. -/
theorem loadRegisterCopies : Obligations.LoadRegisterCopies :=
  ⟨fun x y => decodeWord_encode (.ldReg x y), fun _ _ _ => exec_of_one_write rfl⟩

/-- Settles O27: each of the three writes one register, with the word operation of its name. -/
theorem logicIsBitwiseWithoutFlag : Obligations.LogicIsBitwiseWithoutFlag := by
  refine ⟨fun x y => ⟨decodeWord_encode (.orReg x y), decodeWord_encode (.andReg x y), decodeWord_encode (.xorReg x y)⟩,
    fun x y s => ?_⟩
  obtain ⟨o, ho, hor, hoframe⟩ := exec_of_one_write (i := .orReg x y) (s := s) rfl
  obtain ⟨a, ha, hand, haframe⟩ := exec_of_one_write (i := .andReg x y) (s := s) rfl
  obtain ⟨e, he, hxor, heframe⟩ := exec_of_one_write (i := .xorReg x y) (s := s) rfl
  refine ⟨o, a, e, ho, ha, he, fun b => ?_, fun b => ?_, fun b => ?_, fun r hr => ⟨?_, ?_, ?_⟩,
    hoframe, haframe, heframe⟩
  · rw [hor, if_pos rfl, BitVec.getLsbD_or]
  · rw [hand, if_pos rfl, BitVec.getLsbD_and]
  · rw [hxor, if_pos rfl, BitVec.getLsbD_xor]
  · rw [hor, if_neg hr]
  · rw [hand, if_neg hr]
  · rw [hxor, if_neg hr]

/-! ## Addition, subtraction and shifts with their flag -/

/-- Settles O28: the sum, then the carry. -/
theorem addRegisterWrapsThenCarry : Obligations.AddRegisterWrapsThenCarry :=
  ⟨fun x y => decodeWord_encode (.addReg x y),
    fun _ _ _ => exec_of_two_writes rfl (toNat_addByte _ _) (toNat_flagByte_addCarry _ _)⟩

/-- Settles O29: the difference, then no-borrow. -/
theorem subtractWrapsThenNoBorrow : Obligations.SubtractWrapsThenNoBorrow :=
  ⟨fun x y => decodeWord_encode (.subReg x y),
    fun _ _ _ => exec_of_two_writes rfl (toNat_subByte _ _) (toNat_flagByte_subNoBorrow _ _)⟩

/-- Settles O30: bit 0, then the half. -/
theorem shiftRightInPlace : Obligations.ShiftRightInPlace :=
  ⟨fun x y => decodeWord_encode (.shr x y),
    fun _ _ _ => exec_of_flag_then_result rfl (toNat_shrByte _) (toNat_flagByte_shrOut _)⟩

/-- Settles O31: the difference the other way round, then no-borrow. -/
theorem subtractReversedWrapsThenNoBorrow : Obligations.SubtractReversedWrapsThenNoBorrow :=
  ⟨fun x y => decodeWord_encode (.subnReg x y),
    fun _ _ _ => exec_of_two_writes rfl (toNat_subByte _ _) (toNat_flagByte_subNoBorrow _ _)⟩

/-- Settles O32: bit 7, then the double. -/
theorem shiftLeftInPlace : Obligations.ShiftLeftInPlace :=
  ⟨fun x y => decodeWord_encode (.shl x y),
    fun _ _ _ => exec_of_flag_then_result rfl (toNat_shlByte _) (toNat_flagByte_shlOut _)⟩

end Sys2Proof.Machine
end

section
/-! Proofs for the family of the address register and memory (spec/43_index_memory.md): the values that `I` receives as
natural numbers, what Fx33 and Fx55 leave in memory, and what Fx65 leaves in the registers. -/

namespace Sys2Proof.Machine

/-! ## The writes of `I` -/

@[simp] theorem toNat_addIndex (i : Word) (vx : Byte) : (addIndex i vx).toNat = (i.toNat + vx.toNat) % 65536 :=
  BitVec.toNat_ofNat _ 16

/-- Five times a byte fits in sixteen bits. -/
@[simp] theorem toNat_glyphAddr (vx : Byte) : (glyphAddr vx).toNat = 5 * vx.toNat := by
  have hvx := vx.isLt
  rw [glyphAddr, BitVec.toNat_ofNat, Config.glyphStride, Nat.mod_eq_of_lt (by omega), Nat.mul_comm]

/-- An instruction that advances and writes `I`: its value, and nothing else changed. -/
theorem exec_of_index_write {i : Instr} {s : State} {w : Word} {n : Nat}
    (h : exec i s = .next { s.advance with i := w }) (hw : w.toNat = n) :
    ∃ t, exec i s = .next t ∧ t.i.toNat = n ∧ t = { s with i := t.i, pc := s.pc + 2 } :=
  ⟨_, h, hw, rfl⟩

/-- Settles O34: `nnn` zero-extended is the one write. -/
theorem loadIndexSetsI : Obligations.LoadIndexSetsI :=
  ⟨fun nnn => decodeWord_encode (.ldI nnn), fun nnn _ => exec_of_index_write rfl (toNat_addrWord nnn)⟩

/-- Settles O35: the sum modulo 65536 is the one write. -/
theorem addIndexWrapsAtSixteenBits : Obligations.AddIndexWrapsAtSixteenBits :=
  ⟨fun x => decodeWord_encode (.addI x), fun _ _ => exec_of_index_write rfl (toNat_addIndex _ _)⟩

/-- Settles O36: the product, which does not wrap, is the one write. -/
theorem glyphAddressIsFiveTimesVx : Obligations.GlyphAddressIsFiveTimesVx :=
  ⟨fun x => decodeWord_encode (.ldF x), fun _ _ => exec_of_index_write rfl (toNat_glyphAddr _)⟩

/-! ## The stores Fx33 and Fx55 -/

/-- An address that an instruction stores to holds the stored byte (R54). -/
theorem byteAfter_base_add (s : State) {i : Instr} {k : Nat} (h : k < storeCount i) :
    byteAfter s i (s.base + k) = storedByte s i k := by
  rw [byteAfter, if_pos (by omega), Nat.add_sub_cancel_left]

/-- Every other address holds what it held before (R54). -/
theorem byteAfter_of_outside {s : State} {i : Instr} {a : Nat} (h : a < s.base ∨ s.base + storeCount i ≤ a) :
    byteAfter s i a = Memory.read s.mem a :=
  if_neg (by omega)

/-- The bytes that Fx33 stores are the hundreds, tens and ones of `V[x]` (R143). -/
theorem toNat_storedByte_ldB (s : State) (x : Reg) :
    (storedByte s (.ldB x) 0).toNat = (s.getV x).toNat / 100 ∧
      (storedByte s (.ldB x) 1).toNat = (s.getV x).toNat / 10 % 10 ∧
      (storedByte s (.ldB x) 2).toNat = (s.getV x).toNat % 10 := by
  have hvx := (s.getV x).isLt
  refine ⟨?_, ?_, ?_⟩ <;> exact (BitVec.toNat_ofNat _ 8).trans (Nat.mod_eq_of_lt (by omega))

/-- Byte `k` that Fx55 stores is register `k` (R144). -/
theorem storedByte_storeRegs (s : State) (x k : Reg) : storedByte s (.storeRegs x) k.toNat = s.getV k := by
  simp [storedByte]

/-- Settles O37: memory after Fx33 is `byteAfter`, whose three stored bytes are the digits. -/
theorem decimalDigitsStored : Obligations.DecimalDigitsStored := by
  refine ⟨fun x => decodeWord_encode (.ldB x), fun x s hm => ?_⟩
  rcases exec_ldB_cases x s with ⟨hr, hstore⟩ | ⟨hr, hraise⟩
  · have hmem := read_bcdDigits (x := x) hm hr
    have hstored {k : Nat} (hk : k < 3) := (hmem (s.base + k)).trans (byteAfter_base_add s hk)
    obtain ⟨hhundreds, htens, hones⟩ := toNat_storedByte_ldB s x
    refine ⟨fun hout => by omega, fun _ => ⟨_, hstore, ?_, ?_, ?_, fun a ha => ?_, rfl⟩⟩
    · exact (congrArg BitVec.toNat (hstored (by decide : 0 < 3))).trans hhundreds
    · exact (congrArg BitVec.toNat (hstored (by decide : 1 < 3))).trans htens
    · exact (congrArg BitVec.toNat (hstored (by decide : 2 < 3))).trans hones
    · exact (hmem a).trans (byteAfter_of_outside ha)
  · exact ⟨fun _ => hraise, fun hin => by omega⟩

/-- Settles O38: memory after Fx55 is `byteAfter`, whose stored bytes are the registers. -/
theorem registersStored : Obligations.RegistersStored := by
  refine ⟨fun x => decodeWord_encode (.storeRegs x), fun x s hm => ?_⟩
  rcases exec_storeRegs_cases x s with ⟨hr, hstore⟩ | ⟨hr, hraise⟩
  · have hmem := read_regsTo hm hr
    refine ⟨fun hout => by omega, fun _ => ⟨_, hstore, fun k hk => ?_, fun a ha => ?_, rfl⟩⟩
    · rw [hmem, byteAfter_base_add s (Nat.lt_succ_of_le hk), storedByte_storeRegs]
    · rw [hmem, byteAfter_of_outside ha]
  · exact ⟨fun _ => hraise, fun hin => by omega⟩

/-! ## The load Fx65 -/

/-- Register `k` after bytes are loaded from V0 on: byte `k`, or its value from before where there is none (R145). -/
theorem State.getV_writeRegs (s : State) (bs : List Byte) (k : Reg) :
    ({ s with v := writeRegs s.v 0 bs } : State).getV k = bs[k.toNat]?.getD (s.getV k) := by
  have hk := k.isLt
  have hreg := writeRegs_getElem? s.v 0 k.toNat bs
  rw [Vector.getElem?_eq_getElem hk, Vector.getElem?_eq_getElem hk] at hreg
  apply Option.some_inj.1
  rw [State.getV, hreg]
  by_cases h : k.toNat < bs.length
  · rw [if_pos (by omega), Nat.sub_zero, List.getElem?_eq_getElem h, Option.getD_some]
  · rw [if_neg (by omega), List.getElem?_eq_none (by omega), Option.getD_none, State.getV]

/-- Settles O39: the bytes loaded are those from `I` on, and a register above `V[x]` receives none. -/
theorem registersLoaded : Obligations.RegistersLoaded := by
  refine ⟨fun x => decodeWord_encode (.loadRegs x), fun x s => ?_⟩
  rcases exec_loadRegs_cases x s with ⟨hr, hload⟩ | ⟨hr, hraise⟩
  · refine ⟨fun hout => by omega, fun _ => ⟨_, hload, fun k => ?_, rfl⟩⟩
    refine (s.advance.getV_writeRegs _ k).trans ?_
    rw [Memory.readList_getElem?, State.getV_advance]
    by_cases hk : k.toNat ≤ x.toNat
    · rw [if_pos (Nat.lt_succ_of_le hk), if_pos hk, Option.getD_some]
    · rw [if_neg (by omega), if_neg hk, Option.getD_none]
  · exact ⟨fun _ => hraise, fun hin => by omega⟩

end Sys2Proof.Machine
end

section
/-! Proofs for the family of the display (spec/44_display.md): the cleared display of 00E0, and what the canvas that
Dxyn draws holds at each pixel and in its flag. -/

namespace Sys2Proof.Machine

/-! ## Clearing -/

/-- No pixel of a display of zero rows is set, not even outside the display (R150). -/
@[simp] theorem pixelOf_replicate_zero (px py : Nat) : pixelOf (Vector.replicate 32 0) px py = false := by
  by_cases h : py < 32 <;> simp [pixelOf, h]

/-- Settles O42: the display becomes 32 zero rows, and with the advance of `pc` that is all 00E0 writes. -/
theorem clearTurnsEveryPixelOff : Obligations.ClearTurnsEveryPixelOff :=
  ⟨decodeWord_encode .cls, fun _ => ⟨_, rfl, pixelOf_replicate_zero, rfl⟩⟩

/-! ## Drawing -/

/-- Drawing toggles a covered pixel (R151). -/
theorem pixelOf_drawn_of_covers {x y : Reg} {n : Nibble} {s : State} {px py : Nat}
    (h : spriteCovers s x y n px py) : pixelOf (drawn x y n s).1 px py = !s.pixel px py := by
  simp [pixelOf_drawn, h]

/-- Drawing keeps a pixel that is not covered (R151). -/
theorem pixelOf_drawn_of_not_covers {x y : Reg} {n : Nibble} {s : State} {px py : Nat}
    (h : ¬ spriteCovers s x y n px py) : pixelOf (drawn x y n s).1 px py = s.pixel px py := by
  simp [pixelOf_drawn, h]

/-- The flag of a draw is 1 where a covered pixel was set (R151). -/
theorem flagByte_drawn_eq_one {x y : Reg} {n : Nibble} {s : State}
    (h : ∃ px py, spriteCovers s x y n px py ∧ s.pixel px py = true) : flagByte (drawn x y n s).2 = 1 :=
  if_pos ((drawn_hit x y n s).2 h)

/-- The flag of a draw is 0 where no covered pixel was set (R151). -/
theorem flagByte_drawn_eq_zero {x y : Reg} {n : Nibble} {s : State}
    (h : ¬ ∃ px py, spriteCovers s x y n px py ∧ s.pixel px py = true) : flagByte (drawn x y n s).2 = 0 :=
  if_neg (mt (drawn_hit x y n s).1 h)

/-- Settles O43: in range, the display of the next state is the drawn canvas and VF, the one register written, is its
flag; out of range, Dxyn raises. -/
theorem drawTogglesCoveredPixels : Obligations.DrawTogglesCoveredPixels := by
  refine ⟨fun x y n => decodeWord_encode (.drw x y n), fun x y n s => ?_⟩
  rcases exec_drw_cases x y n s with ⟨hin, hdraw⟩ | ⟨hout, hraise⟩
  · refine ⟨fun hout => by omega, fun _ => ⟨_, hdraw, fun px py _ _ => ?_, fun hhit => ?_, fun hmiss => ?_,
      fun r hr => ?_, rfl⟩⟩
    · exact ⟨pixelOf_drawn_of_covers, pixelOf_drawn_of_not_covers⟩
    · rw [State.getV_setV_self, flagByte_drawn_eq_one hhit]
    · rw [State.getV_setV_self, flagByte_drawn_eq_zero hmiss]
    · exact State.getV_setV_of_ne _ _ hr
  · exact ⟨fun _ => hraise, fun hin => by omega⟩

end Sys2Proof.Machine
end

section
/-! Proofs for the family of the keypad and the timers (spec/45_keypad_timer.md): the latches as the obligations read
them, the skips on a latch, the wait for a key, and the copies between a register and a timer. -/

namespace Sys2Proof.Machine

/-! ## The key latches -/

/-- There are sixteen latches, and `keyDown` reads each of them (R32). -/
theorem State.key_getElem?_eq_some_iff {s : State} {k : Nat} {down : Bool} :
    s.key[k]? = some down ↔ k < 16 ∧ s.keyDown k = down := by
  by_cases h : k < 16 <;> simp [State.keyDown, h]

/-- The index of the lowest pressed key fits in a register (R162). -/
theorem toNat_ofNat_of_lt_sixteen {k : Nat} (h : k < 16) : (BitVec.ofNat 8 k : Byte).toNat = k := by
  rw [BitVec.toNat_ofNat, Nat.mod_eq_of_lt (by omega)]

/-! ## The wait for a key -/

/-- Fx0A with no key pressed stays where it is (R162). -/
theorem exec_ldVxK_of_no_key (x : Reg) {s : State} (h : ∀ k, k < 16 → s.keyDown k = false) :
    exec (.ldVxK x) s = .next s := by
  rcases exec_ldVxK_cases x s with ⟨-, -, hwait⟩ | ⟨k, hk, hdown, -⟩
  · exact hwait
  · exact absurd hdown (by simp [h k hk])

/-- Fx0A writes the lowest pressed key to `V[x]` (R162, D10). -/
theorem exec_ldVxK_of_lowest_key (x : Reg) {s : State} {k : Nat} (hk : k < 16) (hdown : s.keyDown k = true)
    (hlow : ∀ j, j < k → s.keyDown j = false) :
    exec (.ldVxK x) s = .next (s.advance.setV x (BitVec.ofNat 8 k)) := by
  rcases exec_ldVxK_cases x s with ⟨hup, -⟩ | ⟨l, -, hl, hbelow, -, hgo⟩
  · exact absurd hdown (by simp [hup k hk])
  · rcases Nat.lt_trichotomy l k with h | rfl | h
    · exact absurd hl (by simp [hlow l h])
    · exact hgo
    · exact absurd hdown (by simp [hbelow k h])

/-- Fx0A takes no index, so it raises nothing (R166). -/
theorem exec_ldVxK_keeps_fault (x : Reg) (s : State) : ∃ t, exec (.ldVxK x) s = .next t ∧ t.fault = s.fault := by
  rcases exec_ldVxK_cases x s with ⟨-, -, hwait⟩ | ⟨k, -, -, -, -, hgo⟩
  · exact ⟨_, hwait, rfl⟩
  · exact ⟨_, hgo, rfl⟩

/-- Settles O46: the latches decide between the two ends of Fx0A, and a delivered key is the one register write. -/
theorem keyWaitSpinsOrDelivers : Obligations.KeyWaitSpinsOrDelivers := by
  refine ⟨fun x => decodeWord_encode (.ldVxK x), fun x s => ⟨fun hup => ?_, fun k hdown hlow => ?_⟩⟩
  · exact exec_ldVxK_of_no_key x fun k hk => (State.key_getElem?_eq_some_iff.1 (hup k hk)).2
  · obtain ⟨hk, hdown⟩ := State.key_getElem?_eq_some_iff.1 hdown
    have hgo := exec_ldVxK_of_lowest_key x hk hdown fun j hj => (State.key_getElem?_eq_some_iff.1 (hlow j hj)).2
    refine ⟨_, hgo, ?_, fun r hr => State.getV_setV_of_ne s.advance _ hr, rfl⟩
    rw [State.getV_setV_self, toNat_ofNat_of_lt_sixteen hk]

/-! ## The key skips -/

/-- The skip on a key that is not pressed (R161). -/
theorem State.skipIf_advance_not (s : State) (c : Bool) :
    s.advance.skipIf (!c) = { s with pc := if c = true then s.pc + 2 else s.pc + 4 } := by
  cases c <;> exact State.skipIf_advance s _

/-- Settles O45: `V[x]` selects a latch, which decides the two skips, or is above 15, and both raise. -/
theorem keySkipsReadTheLatch : Obligations.KeySkipsReadTheLatch := by
  refine ⟨fun x => ⟨decodeWord_encode (.skp x), decodeWord_encode (.sknp x)⟩,
    fun x s => ⟨exec_ldVxK_keeps_fault x s, ?_⟩⟩
  rcases exec_keySkip_cases x s with ⟨hin, hskp, hsknp⟩ | ⟨hout, hskp, hsknp⟩
  · refine ⟨fun hout => by omega, fun down hlatch => ?_⟩
    obtain ⟨-, rfl⟩ := State.key_getElem?_eq_some_iff.1 hlatch
    exact ⟨by rw [hskp, State.skipIf_advance], by rw [hsknp, State.skipIf_advance_not]⟩
  · refine ⟨fun _ => ⟨hskp, hsknp⟩, fun down hlatch => ?_⟩
    have hin := (State.key_getElem?_eq_some_iff.1 hlatch).1
    omega

/-! ## The timers -/

/-- Settles O47: each of the three is one copy, Fx07 as its one register write. -/
theorem timerTransfersCopy : Obligations.TimerTransfersCopy :=
  ⟨fun x => ⟨decodeWord_encode (.ldVxDt x), decodeWord_encode (.ldDtVx x), decodeWord_encode (.ldStVx x)⟩,
    fun _ _ => ⟨exec_of_one_write rfl, rfl, rfl⟩⟩

end Sys2Proof.Machine
end

section
/-! Proofs for the family of the operations of the host (spec/46_host_operations.md): what `load`, `set_key` and
`get_display` each do, on both sides of their checks. -/

namespace Sys2Proof.Machine

/-! ## Loading a payload -/

/-- `load` either takes its error condition and writes nothing, or writes the payload, which fits in memory (R171). -/
theorem loadRom_cases (bytes : List Byte) (s : State) :
    (3584 < bytes.length ∧ loadRom bytes s = s.raise .oversizedRom) ∨
      (bytes.length ≤ 3584 ∧ loadRom bytes s = { s with mem := Memory.writeList s.mem 0x200 bytes }) := by
  by_cases h : 3584 < bytes.length
  · exact .inl ⟨h, if_pos h⟩
  · exact .inr ⟨Nat.le_of_not_lt h, if_neg h⟩

/-- An address at which byte `k` of a list was written reads as that byte. -/
theorem Memory.read_writeList_add {m : List Host.Cell} {c : Nat} {bs : List Byte} (h : c + bs.length ≤ 4096)
    (hm : Memory.wf m = true) {k : Nat} {b : Byte} (hk : bs[k]? = some b) :
    Memory.read (Memory.writeList m c bs) (c + k) = b := by
  obtain ⟨hlt, -⟩ := List.getElem?_eq_some_iff.1 hk
  rw [Memory.read_writeList (.inr h) hm, if_pos (by omega), Nat.add_sub_cancel_left, hk, Option.getD_some]

/-- An address outside the ones that a list was written to reads as before. -/
theorem Memory.read_writeList_of_outside {m : List Host.Cell} {c : Nat} {bs : List Byte} (h : c + bs.length ≤ 4096)
    (hm : Memory.wf m = true) {a : Nat} (ha : a < c ∨ c + bs.length ≤ a) :
    Memory.read (Memory.writeList m c bs) a = Memory.read m a := by
  rw [Memory.read_writeList (.inr h) hm, if_neg (by omega)]

/-- Settles O50: `load` raises, or its one write is the payload, which ends at or below 0xFFF. -/
theorem loadCopiesPayloadOrFaults : Obligations.LoadCopiesPayloadOrFaults := by
  intro bytes s hm
  rcases loadRom_cases bytes s with ⟨hlong, hraise⟩ | ⟨hfits, hload⟩
  · exact ⟨fun _ => congrArg Host.Outcome.next hraise, fun hfits => by omega⟩
  · have hend : 0x200 + bytes.length ≤ 4096 := by omega
    refine ⟨fun hlong => by omega, fun _ => ⟨_, congrArg Host.Outcome.next hload, fun k b hk => ?_, fun a ha => ?_, rfl⟩⟩
    · exact Memory.read_writeList_add hend hm hk
    · exact Memory.read_writeList_of_outside hend hm ha

/-! ## Setting a key -/

/-- `set_key` either takes its error condition and writes no latch, or writes the one latch of its index (R172). -/
theorem setKey_cases (k : Nat) (pressed : Bool) (s : State) :
    (15 < k ∧ setKey k pressed s = s.raise .invalidInputIndex) ∨
      (k ≤ 15 ∧ setKey k pressed s = { s with key := s.key.setIfInBounds k pressed }) := by
  by_cases h : 15 < k
  · exact .inl ⟨h, if_pos h⟩
  · exact .inr ⟨Nat.le_of_not_lt h, if_neg h⟩

/-- Settles O51: `set_key` raises, or its one write is the latch of its index. -/
theorem setKeyWritesOneLatchOrFaults : Obligations.SetKeyWritesOneLatchOrFaults := by
  intro k pressed s
  rcases setKey_cases k pressed s with ⟨hout, hraise⟩ | ⟨hin, hset⟩
  · exact ⟨fun _ => congrArg Host.Outcome.next hraise, fun hin => by omega⟩
  · refine ⟨fun hout => by omega, fun _ => ⟨_, congrArg Host.Outcome.next hset, ?_, fun j hj => ?_, rfl⟩⟩
    · exact Vector.getElem?_setIfInBounds_self_of_lt (by omega)
    · exact Vector.getElem?_setIfInBounds_ne hj.symm

/-! ## Reading the display -/

/-- Cell `px + 64 * py` of the result of `get_display` is the pixel of that column and row (R173). -/
theorem getDisplay_getElem? (s : State) {px py : Nat} (hx : px < 64) (hy : py < 32) :
    (getDisplay s)[px + 64 * py]? = some (s.pixel px py) := by
  have hcell : px + 64 * py < 2048 := by omega
  have hcol : (px + 64 * py) % 64 = px := by omega
  have hrow : (px + 64 * py) / 64 = py := by omega
  rw [getDisplay, List.getElem?_map, List.getElem?_range hcell, Option.map_some, hcol, hrow]

/-- Settles O52: `get_display` leaves the state alone and lists the 2048 cells. -/
theorem getDisplayShowsEveryCell : Obligations.GetDisplayShowsEveryCell :=
  fun s => ⟨rfl, by simp [getDisplay], fun _ _ => getDisplay_getElem? s⟩

end Sys2Proof.Machine
end

section
/-! Proofs for the family of the exceptions and the timers (spec/60_exceptions.md): what any number of ticks of the
timers leaves (R196). -/

namespace Sys2Proof.Machine

/-! ## Ticks of one timer -/

@[simp] theorem toNat_tickTimer (t : Byte) : (tickTimer t).toNat = t.toNat - 1 := by
  by_cases h : t = 0
  · simp [tickTimer, h]
  · have hone : (1 : Byte) ≤ t := by bv_omega
    rw [tickTimer, if_neg h]
    exact BitVec.toNat_sub_of_le hone

/-- The floor at 0 is that of subtraction on the natural numbers, for any number of ticks. -/
theorem toNat_iterate_tickTimer (n : Nat) (t : Byte) : (tickTimer^[n] t).toNat = t.toNat - n := by
  induction n generalizing t with
  | zero => rfl
  | succ n ih => rw [Function.iterate_succ_apply, ih, toNat_tickTimer, Nat.sub_sub, Nat.add_comm]

/-! ## Ticks of the core -/

/-- The two timers tick apart from each other, and nothing else changes. -/
theorem iterate_tickTimers (n : Nat) (s : State) :
    tickTimers^[n] s = { s with dt := tickTimer^[n] s.dt, st := tickTimer^[n] s.st } := by
  induction n generalizing s with
  | zero => rfl
  | succ n ih => rw [Function.iterate_succ_apply, ih]; rfl

/-- No tick of a trace raises or is refused, so that each one goes on from the state that the one before it left. -/
theorem runTrace_replicate_tickTimers (n : Nat) (s : State) :
    runTrace (List.replicate n .tickTimers) s = .next (tickTimers^[n] s) := by
  induction n generalizing s with
  | zero => rfl
  | succ n ih => exact ih (tickTimers s)

/-- Settles O49: `n` ticks iterate the tick of each timer, which takes one from it down to 0. -/
theorem ticksCountDownToZero : Obligations.TicksCountDownToZero := by
  intro n s
  have hrun := runTrace_replicate_tickTimers n s
  rw [iterate_tickTimers] at hrun
  exact ⟨_, hrun, toNat_iterate_tickTimer n s.dt, toNat_iterate_tickTimer n s.st, rfl⟩

end Sys2Proof.Machine
end

section
/-! Proofs for the encoding as a whole (spec/30_encoding.md R71, R74, R76): the decoder and the encoder are inverse to
each other, and each row of the opcode map is one instruction of the decoder. -/

namespace Sys2Proof

/-- Settles O1: `decodeWord_encode`, a split by the groups of the decoder. -/
theorem decodeInvertsEncode : Obligations.DecodeInvertsEncode := decodeWord_encode

/-! ## Encoding inverts decoding -/

/-- A word whose first digit is known is that digit and its address field. -/
theorem opNNN_fieldNNN {w : Word} {op : Nibble} (h : fieldOp w = op) : op ++ fieldNNN w = w :=
  h ▸ word_eq_opNNN w

/-- A word whose first digit is known is that digit, `x` and its low byte. -/
theorem opXNN_fields {w : Word} {op : Nibble} (h : fieldOp w = op) : op ++ fieldX w ++ fieldNN w = w :=
  h ▸ word_eq_opXNN w

/-- A word whose first digit is known is that digit and the three others. -/
theorem digits_fields {w : Word} {op : Nibble} (h : fieldOp w = op) : op ++ fieldX w ++ fieldY w ++ fieldN w = w :=
  h ▸ word_eq_digits w

theorem encode_of_decodeZero {w : Word} {i : Instr} (h : decodeZero w = .ok i) : encode i = w := by
  unfold decodeZero at h
  split at h
  · cases h; simp [encode, *]
  · split at h
    · cases h; simp [encode, *]
    · cases h

theorem encode_of_decodeEight {x y : Reg} {n : Nibble} {i : Instr} (h : decodeEight x y n = .ok i) :
    encode i = 0x8#4 ++ x ++ y ++ n := by
  unfold decodeEight at h
  split at h <;> cases h <;> rfl

theorem encode_of_decodeE {x : Reg} {nn : Byte} {i : Instr} (h : decodeE x nn = .ok i) :
    encode i = 0xE#4 ++ x ++ nn := by
  unfold decodeE at h
  split at h <;> cases h <;> rfl

theorem encode_of_decodeF {x : Reg} {nn : Byte} {i : Instr} (h : decodeF x nn = .ok i) :
    encode i = 0xF#4 ++ x ++ nn := by
  unfold decodeF at h
  split at h <;> cases h <;> rfl

/-- The decoder loses no bit of a word: each of its groups fixes the digits that it tests and keeps the rest as
operands, ignored fields too (R74, R78). -/
theorem encode_of_decodeWord {w : Word} {i : Instr} (h : decodeWord w = .ok i) : encode i = w := by
  unfold decodeWord at h
  split at h
  case h_1 => exact encode_of_decodeZero h
  case h_2 hop | h_3 hop | h_11 hop | h_12 hop =>
    cases h
    exact opNNN_fieldNNN hop
  case h_4 hop | h_5 hop | h_7 hop | h_8 hop | h_13 hop =>
    cases h
    exact opXNN_fields hop
  case h_6 hop | h_10 hop =>
    split at h
    · cases h
      rename_i hn
      have hw := digits_fields hop
      rw [hn] at hw
      exact hw
    · cases h
  case h_9 hop => exact (encode_of_decodeEight h).trans (digits_fields hop)
  case h_14 hop =>
    cases h
    exact digits_fields hop
  case h_15 hop => exact (encode_of_decodeE h).trans (opXNN_fields hop)
  case h_16 =>
    have hop : fieldOp w = 0xF#4 := by
      simp only [imp_false] at *
      bv_omega
    exact (encode_of_decodeF h).trans (opXNN_fields hop)

/-! ## The rows of the map -/

open Laws.EncodingFitsTable in
/-- The encoding of every instruction fits the row of that instruction, by the law of each. -/
theorem fitsInstr_encode (i : Instr) : fitsInstr i (encode i) = true :=
  Instr.casesOn (motive := Statement) i cls ret jp call seByte sneByte seReg ldByte addByte ldReg orReg andReg xorReg
    addReg subReg shr subnReg shl sneReg ldI jpV0 rnd drw skp sknp ldVxDt ldVxK ldDtVx ldStVx addI ldF ldB storeRegs
    loadRegs

/-- The patterns of two different rows differ in a bit that both masks keep. -/
theorem opcodeTable_disjoint : ∀ j k : Fin opcodeTable.length,
    opcodeTable[j].pattern &&& opcodeTable[k].mask = opcodeTable[k].pattern &&& opcodeTable[j].mask → j = k := by
  decide

/-- No word fits two rows (R76). -/
theorem eq_of_fitsRow {w : Word} {j k : Nat} {q r : Row} (hj : opcodeTable[j]? = some q) (hk : opcodeTable[k]? = some r)
    (hq : fitsRow q w = true) (hr : fitsRow r w = true) : j = k := by
  obtain ⟨hjlt, rfl⟩ := List.getElem?_eq_some_iff.1 hj
  obtain ⟨hklt, rfl⟩ := List.getElem?_eq_some_iff.1 hk
  rw [fitsRow, beq_iff_eq] at hq hr
  have hagree :
      opcodeTable[j].pattern &&& opcodeTable[k].mask = opcodeTable[k].pattern &&& opcodeTable[j].mask := by
    rw [← hq, ← hr]
    ac_rfl
  exact congrArg Fin.val (opcodeTable_disjoint ⟨j, hjlt⟩ ⟨k, hklt⟩ hagree)

/-- A word fits the row of the instruction that it decodes to. -/
theorem exists_fitsRow_of_decodeWord {w : Word} {i : Instr} (h : decodeWord w = .ok i) :
    ∃ r, opcodeTable[rowNumber i]? = some r ∧ fitsRow r w = true := by
  have hfits := fitsInstr_encode i
  rwa [encode_of_decodeWord h, fitsInstr, Option.any_eq_true] at hfits

/-- A word that fits a row is legal, so it decodes. -/
theorem exists_decodeWord_of_fitsRow {w : Word} {k : Nat} {r : Row} (hr : opcodeTable[k]? = some r)
    (h : fitsRow r w = true) : ∃ i, decodeWord w = .ok i := by
  have hlegal : legalWord w = true := List.any_eq_true.2 ⟨r, List.mem_of_getElem? hr, h⟩
  cases hd : decodeWord w with
  | ok i => exact ⟨i, rfl⟩
  | error e =>
    have hillegal := (legalWord_eq_false_iff_decodeWord_eq_error w).2 ⟨e, hd⟩
    cases hlegal.symm.trans hillegal

/-- Settles O2: a word of a row decodes, to an instruction whose row it fits, and that is the same row because no word
fits two. -/
theorem decodeAgreesWithOpcodeMap : Obligations.DecodeAgreesWithOpcodeMap := by
  refine ⟨fun w k r hr => ⟨fun hfits => ?_, ?_⟩, fun w i => encode_of_decodeWord⟩
  · obtain ⟨i, hi⟩ := exists_decodeWord_of_fitsRow hr hfits
    obtain ⟨q, hq, hqfits⟩ := exists_fitsRow_of_decodeWord hi
    exact ⟨i, hi, eq_of_fitsRow hq hr hqfits hfits⟩
  · rintro ⟨i, hi, rfl⟩
    obtain ⟨q, hq, hqfits⟩ := exists_fitsRow_of_decodeWord hi
    cases hq.symm.trans hr
    exact hqfits

end Sys2Proof
end

section
/-! Proofs of the frames: what `exec` leaves unchanged of each part of the state but memory and `pc`, said once for all
instructions as `ExecFrame` (spec/10_state.md R21 to R35). -/

namespace Sys2Proof.Machine

/-! ## The frame of an instruction -/

/-- What `exec` of `i`, from `s` to `t`, leaves unchanged: each part of the state but `pc`, unless `i` is an instruction
that the spec lets write that part (R21 to R35). -/
structure ExecFrame (i : Instr) (s t : State) : Prop where
  regs : ∀ r, mayWriteV i r = false → t.getV r = s.getV r
  index : writesI i = false → t.i = s.i
  stack : writesStack i = false → t.stack = s.stack ∧ t.sp = s.sp
  display : writesDisplay i = false → t.disp = s.disp
  mem : storeCount i = 0 → t.mem = s.mem
  dt : (∀ x, i ≠ .ldDtVx x) → t.dt = s.dt
  st : (∀ x, i ≠ .ldStVx x) → t.st = s.st
  key : t.key = s.key
  draws : (∀ x nn, i ≠ .rnd x nn) → t.draws = s.draws
  fault : s.fault ≠ none → t.fault = s.fault

namespace ExecFrame

variable {i : Instr} {s t : State}

/-! The updates that an instruction may make, and under each of them its frame. -/

theorem setPc (i : Instr) (s : State) (a : Word) : ExecFrame i s { s with pc := a } :=
  ⟨fun _ _ => rfl, fun _ => rfl, fun _ => ⟨rfl, rfl⟩, fun _ => rfl, fun _ => rfl, fun _ => rfl, fun _ => rfl, rfl,
    fun _ => rfl, fun _ => rfl⟩

/-- A raise writes the latch only where it was empty, so it is in the frame of every instruction (R190). -/
theorem raise (i : Instr) (s : State) (c : Cause) : ExecFrame i s (s.raise c) :=
  { setPc i s s.pc with fault := fun h => Option.or_of_isSome (Option.isSome_iff_ne_none.2 h) }

theorem skipIf (i : Instr) (s : State) (c : Bool) : ExecFrame i s (s.advance.skipIf c) := by
  rw [State.skipIf_advance]
  exact setPc i s _

theorem setV (h : ExecFrame i s t) {x : Reg} (hx : mayWriteV i x = true) (b : Byte) : ExecFrame i s (t.setV x b) := by
  refine { h with regs := fun r hr => ?_ }
  have hne : r ≠ x := by rintro rfl; cases hx.symm.trans hr
  rw [State.getV_setV_of_ne t b hne, h.regs r hr]

theorem setI (h : ExecFrame i s t) (hi : writesI i = true) (w : Word) : ExecFrame i s { t with i := w } :=
  { h with index := fun hn => nomatch hi.symm.trans hn }

theorem setStack (h : ExecFrame i s t) (hi : writesStack i = true) (a : Vector Word 16) (n : Fin 17) :
    ExecFrame i s { t with stack := a, sp := n } :=
  { h with stack := fun hn => nomatch hi.symm.trans hn }

theorem setDisp (h : ExecFrame i s t) (hi : writesDisplay i = true) (d : Vector (BitVec 64) 32) :
    ExecFrame i s { t with disp := d } :=
  { h with display := fun hn => nomatch hi.symm.trans hn }

theorem setMem (h : ExecFrame i s t) (hi : storeCount i ≠ 0) (m : List Host.Cell) :
    ExecFrame i s { t with mem := m } :=
  { h with mem := fun hn => absurd hn hi }

end ExecFrame

/-- A register from `bs.length` on receives none of the bytes `bs` that are loaded from V0 on (R145). -/
theorem State.getV_writeRegs_of_length_le (s : State) {bs : List Byte} {r : Reg} (h : bs.length ≤ r.toNat) :
    ({ s with v := writeRegs s.v 0 bs } : State).getV r = s.getV r := by
  rw [State.getV_writeRegs, List.getElem?_eq_none h, Option.getD_none]

open ExecFrame in
/-- Every instruction answers a next state, and that state keeps the frame of the instruction. -/
theorem exists_exec_frame (i : Instr) (s : State) : ∃ t, exec i s = .next t ∧ ExecFrame i s t := by
  have hadv := setPc i s (s.pc + 2)
  cases i with
  | cls => exact ⟨_, rfl, hadv.setDisp rfl _⟩
  | jp _ | jpV0 _ => exact ⟨_, rfl, setPc _ s _⟩
  | seByte _ _ | sneByte _ _ | seReg _ _ | sneReg _ _ => exact ⟨_, rfl, skipIf _ s _⟩
  | ldByte _ _ | addByte _ _ | ldReg _ _ | orReg _ _ | andReg _ _ | xorReg _ _ | ldVxDt _ =>
    exact ⟨_, rfl, hadv.setV BEq.rfl _⟩
  | addReg x _ | subReg x _ | subnReg x _ =>
    have hx : (x == x || x == 0xF) = true := by simp
    have hf : ((0xF : Reg) == x || (0xF : Reg) == 0xF) = true := by simp
    exact ⟨_, rfl, (hadv.setV hx _).setV hf _⟩
  | shr x _ | shl x _ =>
    have hx : (x == x || x == 0xF) = true := by simp
    have hf : ((0xF : Reg) == x || (0xF : Reg) == 0xF) = true := by simp
    exact ⟨_, rfl, (hadv.setV hf _).setV hx _⟩
  | ldI _ | addI _ | ldF _ => exact ⟨_, rfl, hadv.setI rfl _⟩
  | ldDtVx x => exact ⟨_, rfl, { hadv with dt := fun hn => absurd rfl (hn x) }⟩
  | ldStVx x => exact ⟨_, rfl, { hadv with st := fun hn => absurd rfl (hn x) }⟩
  | rnd x nn => exact ⟨_, rfl, { hadv.setV (x := x) BEq.rfl _ with draws := fun hn => absurd rfl (hn x nn) }⟩
  | ret =>
    rcases exec_ret_cases s with ⟨-, hraise⟩ | ⟨-, t, hpop, -, -, ht⟩
    · exact ⟨_, hraise, raise _ s _⟩
    · exact ⟨t, hpop, ht ▸ (setPc .ret s t.pc).setStack rfl s.stack t.sp⟩
  | call nnn =>
    rcases exec_call_cases nnn s with ⟨-, hraise⟩ | ⟨-, t, hcall, -, -, -, -, ht⟩
    · exact ⟨_, hraise, raise _ s _⟩
    · exact ⟨t, hcall, ht ▸ (setPc (.call nnn) s t.pc).setStack rfl t.stack t.sp⟩
  | drw x y n =>
    rcases exec_drw_cases x y n s with ⟨-, hdraw⟩ | ⟨-, hraise⟩
    · exact ⟨_, hdraw, (hadv.setDisp rfl _).setV rfl _⟩
    · exact ⟨_, hraise, raise _ s _⟩
  | skp x =>
    rcases exec_keySkip_cases x s with ⟨-, hskp, -⟩ | ⟨-, hraise, -⟩
    · exact ⟨_, hskp, skipIf _ s _⟩
    · exact ⟨_, hraise, raise _ s _⟩
  | sknp x =>
    rcases exec_keySkip_cases x s with ⟨-, -, hsknp⟩ | ⟨-, -, hraise⟩
    · exact ⟨_, hsknp, skipIf _ s _⟩
    · exact ⟨_, hraise, raise _ s _⟩
  | ldVxK x =>
    rcases exec_ldVxK_cases x s with ⟨-, -, hwait⟩ | ⟨k, -, -, -, -, hgo⟩
    · exact ⟨_, hwait, setPc _ s s.pc⟩
    · exact ⟨_, hgo, hadv.setV BEq.rfl _⟩
  | ldB x =>
    rcases exec_ldB_cases x s with ⟨-, hstore⟩ | ⟨-, hraise⟩
    · exact ⟨_, hstore, hadv.setMem (Nat.succ_ne_zero 2) _⟩
    · exact ⟨_, hraise, raise _ s _⟩
  | storeRegs x =>
    rcases exec_storeRegs_cases x s with ⟨-, hstore⟩ | ⟨-, hraise⟩
    · exact ⟨_, hstore, hadv.setMem (Nat.succ_ne_zero _) _⟩
    · exact ⟨_, hraise, raise _ s _⟩
  | loadRegs x =>
    rcases exec_loadRegs_cases x s with ⟨-, hload⟩ | ⟨-, hraise⟩
    · refine ⟨_, hload, { hadv with regs := fun r hr => s.advance.getV_writeRegs_of_length_le ?_ }⟩
      have hxr : x.toNat < r.toNat := by simpa [mayWriteV] using hr
      rwa [Memory.readList_length]
    · exact ⟨_, hraise, raise _ s _⟩

/-- The frame of any instruction that answers a next state. -/
theorem exec_frame {i : Instr} {s t : State} (h : exec i s = .next t) : ExecFrame i s t := by
  obtain ⟨u, hu, hframe⟩ := exists_exec_frame i s
  cases h.symm.trans hu
  exact hframe

/-! ## The parts of the frame -/

/-- Settles O13: the part of the frame about the registers. -/
theorem registerFrame : Obligations.RegisterFrame := fun _ _ _ h => (exec_frame h).regs

/-- 00EE keeps every slot, the popped one too (R29, D19). -/
theorem exec_ret_stack {s t : State} (h : exec .ret s = .next t) : t.stack = s.stack := by
  rcases exec_ret_cases s with ⟨-, hraise⟩ | ⟨-, u, hpop, -, -, hu⟩
  · cases h.symm.trans hraise
    rfl
  · cases h.symm.trans hpop
    rw [hu]

/-- 2nnn keeps every slot but the one that was free (R102). -/
theorem exec_call_slot_of_ne {nnn : Addr} {s t : State} (h : exec (.call nnn) s = .next t) {j : Nat}
    (hj : j ≠ s.sp.val) : t.stack[j]? = s.stack[j]? := by
  rcases exec_call_cases nnn s with ⟨-, hraise⟩ | ⟨-, u, hcall, -, hkept, -⟩
  · cases h.symm.trans hraise
    rfl
  · cases h.symm.trans hcall
    exact hkept j hj

theorem eq_ret_or_call_of_writesStack {i : Instr} (h : writesStack i = true) : i = .ret ∨ ∃ nnn, i = .call nnn := by
  cases i with
  | ret => exact .inl rfl
  | call nnn => exact .inr ⟨nnn, rfl⟩
  | _ => cases h

/-- No instruction changes a slot that holds a live return address (R27, R29). -/
theorem exec_live_slot {i : Instr} {s t : State} (h : exec i s = .next t) {j : Nat} (hj : j < s.sp.val) :
    t.stack[j]? = s.stack[j]? := by
  cases hw : writesStack i with
  | false => rw [((exec_frame h).stack hw).1]
  | true =>
    obtain rfl | ⟨nnn, rfl⟩ := eq_ret_or_call_of_writesStack hw
    · rw [exec_ret_stack h]
    · exact exec_call_slot_of_ne h (by omega)

/-- Settles O14: the parts of the frame about `I` and the stack, and what 00EE and 2nnn keep of the slots. -/
theorem indexAndStackFrame : Obligations.IndexAndStackFrame := by
  intro i s t h
  refine ⟨(exec_frame h).index, (exec_frame h).stack, ?_, fun j => exec_live_slot h⟩
  rintro rfl
  exact exec_ret_stack h

/-- Settles O15: the parts of the frame about the timers, the latches and the draw counter. -/
theorem timerKeyAndFaultFrame : Obligations.TimerKeyAndFaultFrame := by
  intro i s t h
  obtain ⟨-, -, -, -, -, hdt, hst, hkey, hdraws, hfault⟩ := exec_frame h
  exact ⟨hdt, hst, hkey, hdraws, hfault⟩

/-- Settles O16: the part of the frame about the display. -/
theorem displayFrame : Obligations.DisplayFrame := by
  intro i s t h hd px py
  rw [State.pixel_eq, State.pixel_eq, (exec_frame h).display hd]

end Sys2Proof.Machine
end

section
/-! Proofs about raising and about memory: the check of an instruction decides what it does (spec/60_exceptions.md
R189), and an instruction that raises nothing leaves `byteAfter` in memory (spec/20_memory.md R54). -/

namespace Sys2Proof.Machine

/-! ## The check of an instruction -/

/-- An instruction whose check fails takes the error condition of that check and writes nothing else (R189, R190). -/
theorem exec_of_raises {i : Instr} {s : State} {c : Cause} (h : raises s i = some c) :
    exec i s = .next (s.raise c) := by
  rcases exec_raises_or_nextPc i s with ⟨d, hd, hraise⟩ | ⟨hnone, -⟩
  · cases h.symm.trans hd
    exact hraise
  · cases h.symm.trans hnone

/-- An instruction whose check holds answers a next state with the latch as it was, and `pc` as R25 says. -/
theorem exec_of_raises_eq_none {i : Instr} {s : State} (h : raises s i = none) :
    ∃ t, exec i s = .next t ∧ t.fault = s.fault ∧ (s.pc.toNat ≤ 0xFFE → t.pc.toNat = nextPc s i) := by
  rcases exec_raises_or_nextPc i s with ⟨c, hc, -⟩ | ⟨-, hgo⟩
  · cases h.symm.trans hc
  · exact hgo

/-- Settles O11: the two ends of an instruction, told apart by `raises`. -/
theorem instructionRaisesExactlyItsCheck : Obligations.InstructionRaisesExactlyItsCheck := by
  intro s i
  refine ⟨fun c => exec_of_raises, fun hnone => ?_⟩
  obtain ⟨t, h, hfault, -⟩ := exec_of_raises_eq_none hnone
  exact ⟨t, h, hfault⟩

/-! ## Memory after an instruction -/

theorem exists_of_storeCount_ne_zero {i : Instr} (h : storeCount i ≠ 0) : ∃ x, i = .ldB x ∨ i = .storeRegs x := by
  cases i with
  | ldB x => exact ⟨x, .inl rfl⟩
  | storeRegs x => exact ⟨x, .inr rfl⟩
  | _ => exact absurd rfl h

/-- A store that raises nothing ends at or below 0xFFF (R53). -/
theorem storeCount_le_of_raises_eq_none {i : Instr} {s : State} (hi : storeCount i ≠ 0) (h : raises s i = none) :
    s.base + storeCount i ≤ 4096 := by
  have hin : ¬(0 < storeCount i ∧ 0xFFF < s.base + storeCount i - 1) := by
    intro hout
    obtain ⟨x, rfl | rfl⟩ := exists_of_storeCount_ne_zero hi <;> cases h.symm.trans (if_pos hout)
  omega

/-- Memory after an instruction that raises nothing: canonical, and `byteAfter` at every address (R54). -/
theorem exec_mem_of_raises_eq_none {i : Instr} {s t : State} (hm : Memory.wf s.mem = true) (hr : raises s i = none)
    (h : exec i s = .next t) : Memory.wf t.mem = true ∧ ∀ a, Memory.read t.mem a = byteAfter s i a := by
  by_cases hi : storeCount i = 0
  · rw [(exec_frame h).mem hi]
    exact ⟨hm, fun a => (byteAfter_of_outside (by omega)).symm⟩
  · have hend := storeCount_le_of_raises_eq_none hi hr
    obtain ⟨x, rfl | rfl⟩ := exists_of_storeCount_ne_zero hi
    · rcases exec_ldB_cases x s with ⟨hin, hstore⟩ | ⟨hout, -⟩
      · cases h.symm.trans hstore
        exact ⟨Memory.wf_writeList (.inr hend) hm, read_bcdDigits hm hin⟩
      · simp only [storeCount] at hend; omega
    · rcases exec_storeRegs_cases x s with ⟨hin, hstore⟩ | ⟨hout, -⟩
      · cases h.symm.trans hstore
        exact ⟨Memory.wf_writeList (.inr ((s.regsTo_length x).symm ▸ hend)) hm, read_regsTo hm hin⟩
      · simp only [storeCount] at hend; omega

/-- Every instruction keeps memory canonical. -/
theorem exec_keeps_wf {i : Instr} {s t : State} (hm : Memory.wf s.mem = true) (h : exec i s = .next t) :
    Memory.wf t.mem = true := by
  cases hr : raises s i with
  | none => exact (exec_mem_of_raises_eq_none hm hr h).1
  | some c =>
    cases h.symm.trans (exec_of_raises hr)
    exact hm

/-- Settles O17: an instruction that raises leaves memory as it was, and `byteAfter` differs from it only where the
instruction stores. -/
theorem memoryFrame : Obligations.MemoryFrame := by
  intro i s t hm h a ha
  cases hr : raises s i with
  | none => rw [(exec_mem_of_raises_eq_none hm hr h).2, byteAfter_of_outside (by omega)]
  | some c =>
    cases h.symm.trans (exec_of_raises hr)
    rfl

theorem nextPc_of_storeCount_ne_zero {i : Instr} (h : storeCount i ≠ 0) (s : State) :
    nextPc s i = s.pc.toNat + 2 := by
  obtain ⟨x, rfl | rfl⟩ := exists_of_storeCount_ne_zero h <;> rfl

/-- Settles O41: the store leaves the latch empty and `pc` at the next instruction, whose two bytes are `byteAfter`. -/
theorem storedWordIsFetchedNext : Obligations.StoredWordIsFetchedNext := by
  intro i j s hi hr hs hm hpc hj
  obtain ⟨t, h, hfault, htpc⟩ := exec_of_raises_eq_none hr
  have hread := (exec_mem_of_raises_eq_none hm hr h).2
  have hnext : t.pc.toNat = s.pc.toNat + 2 := (htpc (by omega)).trans (nextPc_of_storeCount_ne_zero hi s)
  refine ⟨t, h, step_eq_exec (hfault.trans hs) (fetch?_eq_some_of_le (by omega)) ?_⟩
  rw [hread, hread, hnext]
  exact hj

/-- Settles O40: the load reads, at the same base, the addresses at which the store left the registers. -/
theorem storeThenLoadRecoversRegisters : Obligations.StoreThenLoadRecoversRegisters := by
  intro x s t u hm hr hstore hmem hi
  obtain ⟨t', hstore', hread, -, hframe⟩ := (registersStored.2 x s hm).2 hr
  cases hstore.symm.trans hstore'
  have hbase : u.base = s.base := by rw [State.base, hi, hframe, State.base]
  obtain ⟨w, hload, hregs, -⟩ := (registersLoaded.2 x u).2 (hbase ▸ hr)
  refine ⟨w, hload, fun k hk => ?_⟩
  rw [hregs, if_pos hk, hbase, hmem, hread k hk]

end Sys2Proof.Machine
end

section
/-! Proofs about the step: that it always answers, what it leaves where it faults (spec/40_step_cycle.md R90, R94), and
that it runs the word at `pc` (R93). -/

namespace Sys2Proof.Machine

/-! ## The outcomes of a step -/

/-- A step of a running core either sets the latch and nothing else, or is an instruction that raises nothing (R90,
R94). -/
theorem step_cases_of_fault_none {s : State} (hs : s.fault = none) :
    (∃ c, step s = .next { s with fault := some c }) ∨
      ∃ i t, s.pc.toNat ≤ 0xFFE ∧ raises s i = none ∧ exec i s = .next t ∧ t.fault = none ∧
        step s = .next t := by
  rcases step_cases s with ⟨hf, -⟩ | ⟨-, ⟨-, h⟩ | ⟨w, hw, ⟨e, -, h⟩ | ⟨i, -, h⟩⟩⟩
  · exact absurd hs hf
  · exact .inl ⟨_, h⟩
  · exact .inl ⟨_, h⟩
  · rcases exec_raises_or_nextPc i s with ⟨c, -, hi⟩ | ⟨hr, t, hi, ht, -⟩
    · exact .inl ⟨c, by rw [h, hi, State.raise, hs, Option.none_or]⟩
    · exact .inr ⟨i, t, pc_le_of_fetch?_eq_some hw, hr, hi, ht.trans hs, h.trans hi⟩

/-- Settles O8: a faulted core steps to itself, and a running one answers in both of its cases. -/
theorem stepAlwaysAnswersNext : Obligations.StepAlwaysAnswersNext := by
  intro s
  by_cases hs : s.fault = none
  · rcases step_cases_of_fault_none hs with ⟨c, h⟩ | ⟨i, t, -, -, -, -, h⟩
    · exact ⟨_, h⟩
    · exact ⟨t, h⟩
  · exact ⟨s, step_of_fault_ne_none hs⟩

/-- Settles O9: of the two cases of a step, the instruction that raises nothing leaves the latch empty. -/
theorem faultingStepCommitsNothing : Obligations.FaultingStepCommitsNothing := by
  intro s t hs h ht
  rcases step_cases_of_fault_none hs with ⟨c, hraise⟩ | ⟨i, u, -, -, -, hu, hgo⟩
  · cases h.symm.trans hraise
    exact ⟨c, rfl⟩
  · cases h.symm.trans hgo
    exact absurd hu ht

/-! ## The word at `pc` -/

/-- Settles O4: both bytes are in memory, so the fetch reads them. -/
theorem stepRunsDecodedInstruction : Obligations.StepRunsDecodedInstruction :=
  fun _ _ hs hpc hi => step_eq_exec hs (fetch?_eq_some_of_le (Nat.le_of_succ_le_succ hpc)) hi

/-- A word placed where both its bytes are in memory is two writes of one byte each (R50). -/
theorem State.withFetchWord_eq {s : State} (h : s.pc.toNat ≤ 0xFFE) (w : Word) :
    s.withFetchWord 16 w.toNat = { s with mem := Memory.writeList s.mem s.pc.toNat (wordBytes w) } := by
  have hw : tableWord 16 w.toNat = w := by
    rw [tableWord, Nat.mod_eq_of_lt w.isLt, BitVec.ofNat_toNat, BitVec.setWidth_eq]
  rw [State.withFetchWord, hw, placeWord]
  rcases Memory.store?_cases s.mem s.pc.toNat (wordBytes w) with ⟨hstore, -⟩ | ⟨-, -, hout⟩
  · rw [hstore]
  · have hlen : (wordBytes w).length = 2 := rfl
    omega

/-- The fetch reads the word that was placed (R50, R91). -/
theorem fetch?_withFetchWord {s : State} (h : s.pc.toNat ≤ 0xFFE) (hm : Memory.wf s.mem = true) (w : Word) :
    fetch? (s.withFetchWord 16 w.toNat) = some w := by
  have hend : s.pc.toNat + (wordBytes w).length ≤ 4096 := Nat.add_le_add_right h 2
  have hhigh := Memory.read_writeList_add hend hm (k := 0) rfl
  have hlow := Memory.read_writeList_add hend hm (k := 1) rfl
  have hword := (congrArg₂ (· ++ ·) hhigh hlow).trans (wordBytes_append w)
  have hfetch := fetch?_eq_some_of_le (s := s.withFetchWord 16 w.toNat)
  rw [State.withFetchWord_eq h] at hfetch ⊢
  exact (hfetch h).trans (congrArg some hword)

/-- Settles O12: the fetch reads the placed word, and the decoder gives the instruction back. -/
theorem placedInstructionIsRun : Obligations.PlacedInstructionIsRun := by
  intro s i hs hpc hm
  refine step_eq_exec ?_ (fetch?_withFetchWord hpc hm (encode i)) (decodeWord_encode i)
  rw [State.withFetchWord_eq hpc]
  exact hs

end Sys2Proof.Machine
end

section
/-! Proofs of three laws of single instructions: a sprite drawn twice (spec/44_display.md R152), the sound timer, which
no instruction reads (spec/10_state.md R31), and the drawn byte of Cxnn (spec/42_load_alu.md R131). -/

namespace Sys2Proof.Machine

/-! ## Drawing twice -/

/-- Which pixels a sprite covers depends only on its two coordinates, `I` and memory (R151). -/
theorem spriteCovers_congr {s t : State} {x y : Reg} (hx : t.getV x = s.getV x) (hy : t.getV y = s.getV y)
    (hi : t.i = s.i) (hmem : t.mem = s.mem) (n : Nibble) (px py : Nat) :
    spriteCovers t x y n px py ↔ spriteCovers s x y n px py := by
  simp only [spriteCovers, State.base, hx, hy, hi, hmem]

/-- Settles O44: the first draw changes neither coordinate, nor `I`, nor memory, so the second one toggles the same
pixels back; and a covered pixel that was clear is set when the second one reaches it. -/
theorem drawingTwiceCancels : Obligations.DrawingTwiceCancels := by
  intro x y n s hx hy hr
  obtain ⟨t, htdraw, htpix, hthit, -, htregs, ht⟩ := (drawTogglesCoveredPixels.2 x y n s).2 hr
  have hbase : t.base = s.base := by rw [ht]; rfl
  obtain ⟨u, hudraw, hupix, huhit, -⟩ := (drawTogglesCoveredPixels.2 x y n t).2 (hbase ▸ hr)
  have hcover := spriteCovers_congr (htregs x hx) (htregs y hy) (by rw [ht]) (by rw [ht]) n
  refine ⟨t, u, htdraw, hudraw, disp_eq_of_pixelOf fun px py hpx hpy => ?_,
    fun hvf ⟨px, py, hc⟩ => huhit ⟨px, py, ?_⟩⟩
  · obtain ⟨hton, htoff⟩ := htpix px py hpx hpy
    obtain ⟨huon, huoff⟩ := hupix px py hpx hpy
    change u.pixel px py = s.pixel px py
    by_cases hc : spriteCovers s x y n px py
    · rw [huon ((hcover px py).2 hc), hton hc, Bool.not_not]
    · rw [huoff (mt (hcover px py).1 hc), htoff hc]
  · have hclear : s.pixel px py = false := by
      by_contra hset
      cases hvf.symm.trans (hthit ⟨px, py, hc, eq_true_of_ne_false hset⟩)
    obtain ⟨hpx, hpy⟩ := spriteCovers_bound hc
    exact ⟨(hcover px py).2 hc, by rw [(htpix px py hpx hpy).1 hc, hclear, Bool.not_false]⟩

/-! ## The sound timer -/

/-- The state with another value in `ST`. -/
def State.setSt (s : State) (b : Byte) : State := { s with st := b }

@[simp] theorem State.pc_setSt (s : State) (b : Byte) : (s.setSt b).pc = s.pc := rfl
@[simp] theorem State.mem_setSt (s : State) (b : Byte) : (s.setSt b).mem = s.mem := rfl
@[simp] theorem State.base_setSt (s : State) (b : Byte) : (s.setSt b).base = s.base := rfl
@[simp] theorem State.getV_setSt (s : State) (b : Byte) (r : Reg) : (s.setSt b).getV r = s.getV r := rfl
@[simp] theorem State.regsTo_setSt (s : State) (b : Byte) (x : Reg) : (s.setSt b).regsTo x = s.regsTo x := rfl
@[simp] theorem State.keyAt?_setSt (s : State) (b vx : Byte) : (s.setSt b).keyAt? vx = s.keyAt? vx := rfl
@[simp] theorem State.lowestKey?_setSt (s : State) (b : Byte) : (s.setSt b).lowestKey? = s.lowestKey? := rfl
@[simp] theorem State.advance_setSt (s : State) (b : Byte) : (s.setSt b).advance = s.advance.setSt b := rfl

@[simp] theorem State.pop?_setSt (s : State) (b : Byte) :
    (s.setSt b).pop? = s.pop?.map fun (a, t) => (a, t.setSt b) := by
  rw [State.pop?, State.pop?, apply_dite (Option.map _)]
  rfl

@[simp] theorem State.push?_setSt (s : State) (b : Byte) (a : Word) :
    (s.setSt b).push? a = (s.push? a).map fun t => t.setSt b := by
  rw [State.push?, State.push?, apply_dite (Option.map _)]
  rfl

@[simp] theorem State.skipIf_setSt (s : State) (b : Byte) (c : Bool) : (s.setSt b).skipIf c = (s.skipIf c).setSt b := by
  cases c <;> rfl

/-- An outcome with another value in `ST` of its next state. -/
def setStNext (b : Byte) : Result → Result
  | .next t => .next (t.setSt b)
  | r => r

/-- `ST` passes through every instruction but Fx18: what each one branches on does not depend on it, and neither does
what it writes (R31). -/
theorem exec_setSt {i : Instr} (hi : ∀ x, i ≠ .ldStVx x) (s : State) (b : Byte) :
    exec i (s.setSt b) = setStNext b (exec i s) := by
  cases i with
  | ldStVx x => exact absurd rfl (hi x)
  | seByte _ _ | sneByte _ _ | seReg _ _ | sneReg _ _ => exact congrArg Host.Outcome.next (s.advance.skipIf_setSt b _)
  | ret =>
    simp only [exec, execRet, State.pop?_setSt]
    cases s.pop? <;> rfl
  | call nnn =>
    simp only [exec, execCall, State.advance_setSt, State.pc_setSt, State.push?_setSt]
    cases s.advance.push? (s.pc + 2) <;> rfl
  | drw x y n =>
    simp only [exec, execDrw, State.base_setSt, State.mem_setSt]
    cases Memory.load? s.mem s.base n.toNat <;> rfl
  | skp x | sknp x =>
    simp only [exec, execSkp, execSknp, State.getV_setSt, State.keyAt?_setSt, State.advance_setSt, State.skipIf_setSt]
    cases s.keyAt? (s.getV x) <;> rfl
  | ldVxK x =>
    simp only [exec, execLdVxK, State.lowestKey?_setSt]
    cases s.lowestKey? <;> rfl
  | ldB x =>
    simp only [exec, execLdB, State.getV_setSt, State.base_setSt, State.mem_setSt]
    cases Memory.store? s.mem s.base (bcdDigits (s.getV x)) <;> rfl
  | storeRegs x =>
    simp only [exec, execStoreRegs, State.regsTo_setSt, State.base_setSt, State.mem_setSt]
    cases Memory.store? s.mem s.base (s.regsTo x) <;> rfl
  | loadRegs x =>
    simp only [exec, execLoadRegs, State.base_setSt, State.mem_setSt]
    cases Memory.load? s.mem s.base (x.toNat + 1) <;> rfl
  | cls | jp _ | jpV0 _ | ldByte _ _ | addByte _ _ | ldReg _ _ | orReg _ _ | andReg _ _ | xorReg _ _ | addReg _ _
  | subReg _ _ | shr _ _ | subnReg _ _ | shl _ _ | ldI _ | rnd _ _ | ldVxDt _ | ldDtVx _ | addI _ | ldF _ => rfl

/-- Settles O48: Fx18 overwrites `ST`, and through every other instruction the other value passes. -/
theorem soundTimerIsNeverRead : Obligations.SoundTimerIsNeverRead := by
  intro i s t b h
  refine ⟨?_, fun hi => ?_⟩
  · rintro x rfl
    exact h
  · exact (exec_setSt hi s b).trans (congrArg (setStNext b) h)

/-! ## The drawn byte -/

/-- Settles O33: the drawn byte ANDed with `nn` is the one register write. -/
theorem randomDrawsOneByteMasked : Obligations.RandomDrawsOneByteMasked := by
  refine ⟨fun x nn => decodeWord_encode (.rnd x nn), fun x nn s => ⟨_, rfl, fun b => ?_, fun r hr => ?_, rfl⟩⟩
  · rw [State.getV_setV_self, BitVec.getLsbD_and]
  · exact State.getV_setV_of_ne _ _ hr

end Sys2Proof.Machine
end

section
/-! Proofs about more than one instruction: a call and its return (spec/41_control_flow.md R100, R102), the latch over a
trace and its code (spec/10_state.md R35), and the invariant (R41). -/

namespace Sys2Proof.Machine

/-! ## Call and return -/

/-- Settles O55: the call stores `pc + 2` in the free slot, and the return, which finds it there, writes no slot. -/
theorem callThenReturnResumes : Obligations.CallThenReturnResumes := by
  intro nnn s hsp
  rcases exec_call_cases nnn s with ⟨hfull, -⟩ | ⟨-, t, hcall, hslot, hkept, htsp, -, ht⟩
  · omega
  rcases exec_ret_cases t with ⟨hempty, -⟩ | ⟨-, u, hret, husp, hpop, hu⟩
  · omega
  have hstack : u.stack = t.stack := exec_ret_stack hret
  rw [htsp, Nat.add_sub_cancel] at husp hpop
  have hpc : u.pc = s.pc + 2 := Option.some_inj.1 (hpop.symm.trans hslot)
  have hspeq : u.sp = s.sp := Fin.ext husp
  refine ⟨t, u, hcall, hret, by rw [hstack, hslot], fun j hj => by rw [hstack, hkept j hj], ?_⟩
  rw [hu, ht, hpc, hspeq]

/-- Settles O56, by induction on the trace: each of its operations keeps the cause. -/
theorem firstFaultIsKept : Obligations.FirstFaultIsKept := by
  intro ops
  induction ops with
  | nil => exact fun s c hs _ _ => ⟨s, rfl, hs⟩
  | cons op ops ih =>
    intro s c hs hr hc
    rw [List.mem_cons, not_or] at hr hc
    obtain ⟨t, happly, ht⟩ := applyOp_keeps_cause hs (Ne.symm hr.1) (Ne.symm hc.1)
    rw [runTrace, happly]
    exact ih t c ht hr.2 hc.2

/-! ## The latch -/

/-- The latch that a code stands for (R35, R180). -/
def causeOfCode : BitVec 3 → Option Cause
  | 1 => some .unimplementedOpcode
  | 2 => some .stackOverflow
  | 3 => some .stackUnderflow
  | 4 => some .addressOutOfRange
  | 5 => some .invalidInputIndex
  | 6 => some .oversizedRom
  | _ => none

theorem causeOfCode_faultCode : Function.LeftInverse causeOfCode faultCode
  | none => rfl
  | some c => by cases c <;> rfl

/-- Settles O53: the codes have a left inverse, so no two latches share one. -/
theorem hostSeesTimersAndFaultCode : Obligations.HostSeesTimersAndFaultCode :=
  ⟨fun _ => rfl, rfl, fun _ _ h => causeOfCode_faultCode.injective h⟩

/-! ## The invariant -/

/-- Settles O57: nothing is listed in memory, `pc` is 0x200, and no return address is held. -/
theorem resetMeetsInvariant : Obligations.ResetMeetsInvariant :=
  ⟨Memory.wf_reset, by decide, fun j hj => absurd hj (Nat.not_lt_zero j)⟩

/-- The invariant does not speak of the latch, so a raise keeps it. -/
theorem State.Inv.setFault {s : State} (h : s.Inv) (f : Option Cause) : ({ s with fault := f } : State).Inv :=
  ⟨h.memWf, h.pcBound, h.liveSlots⟩

/-- Where an instruction that raises nothing leaves `pc` is at most 0x10FE, which Bnnn reaches with 0xFF and 0xFFF
(R26(c), R41(b)). -/
theorem nextPc_le {s : State} {i : Instr} (hs : s.Inv) (hpc : s.pc.toNat ≤ 0xFFE) (hr : raises s i = none) :
    nextPc s i ≤ 0x10FE := by
  cases i with
  | jp nnn | call nnn =>
    have hnnn := nnn.isLt
    simp only [nextPc]; omega
  | jpV0 nnn =>
    have hnnn := nnn.isLt
    have hv := (s.getV 0).isLt
    simp only [nextPc]; omega
  | ret =>
    have hsp : s.sp.val ≠ 0 := fun hempty => nomatch hr.symm.trans (if_pos hempty)
    have hslot := hs.liveSlots (s.sp.val - 1) (by omega)
    simp only [nextPc]; omega
  | _ => simp only [nextPc]; split <;> omega

/-- The return address that a call pushes is at most 0x1000, and no other slot becomes live (R41(c)). -/
theorem exec_keeps_liveSlots {i : Instr} {s t : State} (hs : s.Inv) (hpc : s.pc.toNat ≤ 0xFFE)
    (h : exec i s = .next t) (j : Nat) (hj : j < t.sp.val) : (t.stack[j]?.getD 0).toNat ≤ 0x1000 := by
  cases hw : writesStack i with
  | false =>
    obtain ⟨hstack, hsp⟩ := (exec_frame h).stack hw
    rw [hstack]
    exact hs.liveSlots j (hsp ▸ hj)
  | true =>
    obtain rfl | ⟨nnn, rfl⟩ := eq_ret_or_call_of_writesStack hw
    · rcases exec_ret_cases s with ⟨-, hraise⟩ | ⟨-, u, hpop, husp, -, hu⟩
      · cases h.symm.trans hraise
        exact hs.liveSlots j hj
      · cases h.symm.trans hpop
        rw [hu]
        exact hs.liveSlots j (by omega)
    · rcases exec_call_cases nnn s with ⟨-, hraise⟩ | ⟨-, u, hcall, hslot, hkept, husp, -, -⟩
      · cases h.symm.trans hraise
        exact hs.liveSlots j hj
      · cases h.symm.trans hcall
        by_cases hnew : j = s.sp.val
        · have hret := State.toNat_advance_pc hpc
          rw [State.advance_pc] at hret
          rw [hnew, hslot, Option.getD_some]; omega
        · rw [hkept j hnew]
          exact hs.liveSlots j (by omega)

/-- An instruction that was fetched and raises nothing keeps the invariant. -/
theorem exec_keeps_inv {i : Instr} {s t : State} (hs : s.Inv) (hpc : s.pc.toNat ≤ 0xFFE) (hr : raises s i = none)
    (h : exec i s = .next t) : t.Inv := by
  obtain ⟨u, hu, -, hnext⟩ := exec_of_raises_eq_none hr
  cases h.symm.trans hu
  exact ⟨exec_keeps_wf hs.memWf h, (hnext hpc).trans_le (nextPc_le hs hpc hr), exec_keeps_liveSlots hs hpc h⟩

/-- Settles O58: a step that does not change the latch alone is an instruction that was fetched and raises nothing. -/
theorem stepKeepsInvariant : Obligations.StepKeepsInvariant := by
  intro s t hs h
  by_cases hf : s.fault = none
  · rcases step_cases_of_fault_none hf with ⟨c, hraise⟩ | ⟨i, u, hpc, hr, hexec, -, hgo⟩
    · cases h.symm.trans hraise
      exact hs.setFault _
    · cases h.symm.trans hgo
      exact exec_keeps_inv hs hpc hr hexec
  · cases h.symm.trans (step_of_fault_ne_none hf)
    exact hs

/-- A reset meets the invariant, whatever the draw counter. -/
theorem resetOp_inv (s : State) : (resetOp s).Inv := by
  obtain ⟨hwf, hpc, hslots⟩ := resetMeetsInvariant
  exact ⟨hwf, hpc, hslots⟩

/-- Loading a payload keeps the invariant: one that is not too long ends in memory (R171). -/
theorem loadRom_keeps_inv {s : State} (hs : s.Inv) (bytes : List Byte) : (loadRom bytes s).Inv := by
  rcases loadRom_cases bytes s with ⟨-, hraise⟩ | ⟨hfits, hload⟩
  · rw [hraise]
    exact hs.setFault _
  · rw [hload]
    exact ⟨Memory.wf_writeList (.inr (by omega)) hs.memWf, hs.pcBound, hs.liveSlots⟩

/-- Writing a key keeps the invariant, which does not speak of the latches. -/
theorem setKey_keeps_inv {s : State} (hs : s.Inv) (index : Nat) (pressed : Bool) : (setKey index pressed s).Inv := by
  rcases setKey_cases index pressed s with ⟨-, hraise⟩ | ⟨-, hset⟩
  · rw [hraise]
    exact hs.setFault _
  · rw [hset]
    exact ⟨hs.memWf, hs.pcBound, hs.liveSlots⟩

/-- Each of the seven operations keeps the invariant. -/
theorem applyOp_keeps_inv {op : HostOp} {s t : State} (hs : s.Inv) (h : applyOp op s = .next t) : t.Inv := by
  cases op with
  | construct | reset => cases h; exact resetOp_inv s
  | load bytes => cases h; exact loadRom_keeps_inv hs bytes
  | step => exact stepKeepsInvariant s t hs h
  | tickTimers => cases h; exact ⟨hs.memWf, hs.pcBound, hs.liveSlots⟩
  | getDisplay => cases h; exact hs
  | setKey index pressed => cases h; exact setKey_keeps_inv hs index pressed

/-- Settles O59, by induction on the trace. -/
theorem traceKeepsInvariant : Obligations.TraceKeepsInvariant := by
  intro ops
  induction ops with
  | nil => intro s t hs h; cases h; exact hs
  | cons op ops ih =>
    intro s t hs h
    rw [runTrace] at h
    cases happly : applyOp op s with
    | next u => exact ih u t (applyOp_keeps_inv hs happly) (by rwa [happly] at h)
    | fault r => cases r
    | refused r => rw [happly] at h; cases h

end Sys2Proof.Machine
end
